-- ==== Sys2Proof/Word.lean ====
section
/-! DEFINITION. The words of the machine: bytes, the length input `mxl`, and the pair of halves in which a
general register or the program counter is held. -/

namespace Sys2Proof

/-- A configuration byte, or a byte of instruction memory (00_scope.md 5.1). -/
abbrev Byte := BitVec 8

/-- The input `mxl`, coded as the source codes `CSR[misa].MXL` (00_scope.md R4, 90_conflicts.md C7): `zero` is the
source's `MXL == 0`, `one` its `MXL == 1`. The ratified architecture's own coding of that field (1 and 2) is another
one and is never used here. -/
inductive Mxl where
  | zero
  | one
  deriving DecidableEq, Repr

/-- `LEN(mxl)`, the length of the register and of a general register in bits (10_state.md R12). -/
abbrev Mxl.len : Mxl → Nat
  | .zero => 32
  | .one => 64

/-- The value of `MXL` read by the source's coding; any other number has no meaning in the source and gives no `mxl`
(00_scope.md R4, 93_implementation_defined.md U6). -/
def Mxl.ofNat? : Nat → Option Mxl
  | 0 => some .zero
  | 1 => some .one
  | _ => none

/-- A register as wide as the widest `LEN`: `lo` is bits 31:0, seen at both lengths; `hi` is bits 63:32, seen only
when `mxl == 1` (10_state.md section 8: general registers and `pc` are `XLEN == LEN(mxl)` bits wide). -/
structure XWord where
  lo : BitVec 32
  hi : BitVec 32
  deriving DecidableEq, Repr

/-- The register whose every bit is 0. -/
def XWord.zero : XWord := { lo := 0, hi := 0 }

end Sys2Proof
end

