-- ==== Sys2Proof/Syntax.lean ====
section
/-! DEFINITION. The instructions: one constructor per row of spec/opcode_table.json. -/

namespace Sys2Proof

/-- The six CSR-access instructions (30_encoding.md R60, R63), for any CSR address. `rd` and `rs1` are numbers of
general registers, `csr` is the 12-bit CSR address, `uimm` the 5-bit unsigned immediate. -/
inductive Instr where
  /-- `csrrw rd, csr, rs1` (40_csr_access.md R75). -/
  | csrrw (rd : Nat) (csr : BitVec 12) (rs1 : Nat)
  /-- `csrrs rd, csr, rs1` (40_csr_access.md R76). -/
  | csrrs (rd : Nat) (csr : BitVec 12) (rs1 : Nat)
  /-- `csrrc rd, csr, rs1` (40_csr_access.md R77). -/
  | csrrc (rd : Nat) (csr : BitVec 12) (rs1 : Nat)
  /-- `csrrwi rd, csr, uimm` (40_csr_access.md R78). -/
  | csrrwi (rd : Nat) (csr : BitVec 12) (uimm : BitVec 5)
  /-- `csrrsi rd, csr, uimm` (40_csr_access.md R79). -/
  | csrrsi (rd : Nat) (csr : BitVec 12) (uimm : BitVec 5)
  /-- `csrrci rd, csr, uimm` (40_csr_access.md R80). -/
  | csrrci (rd : Nat) (csr : BitVec 12) (uimm : BitVec 5)
  deriving DecidableEq, Repr

/-- The CSR address an instruction names (30_encoding.md R60). -/
def Instr.csr : Instr → BitVec 12
  | .csrrw _ csr _ => csr
  | .csrrs _ csr _ => csr
  | .csrrc _ csr _ => csr
  | .csrrwi _ csr _ => csr
  | .csrrsi _ csr _ => csr
  | .csrrci _ csr _ => csr

/-- The number of the destination register (30_encoding.md R60). -/
def Instr.rd : Instr → Nat
  | .csrrw rd _ _ => rd
  | .csrrs rd _ _ => rd
  | .csrrc rd _ _ => rd
  | .csrrwi rd _ _ => rd
  | .csrrsi rd _ _ => rd
  | .csrrci rd _ _ => rd

/-- The form writes the CSR: `csrrw` and `csrrwi` always, the set and clear forms unless their register number or
immediate is 0 (40_csr_access.md section 4). -/
def Instr.writes : Instr → Bool
  | .csrrw _ _ _ => true
  | .csrrs _ _ rs1 => rs1 != 0
  | .csrrc _ _ rs1 => rs1 != 0
  | .csrrwi _ _ _ => true
  | .csrrsi _ _ uimm => uimm != 0
  | .csrrci _ _ uimm => uimm != 0

end Sys2Proof
end

