-- ==== Sys2Proof/WellFormed.lean ====
section
/-! DEFINITION. Which instruction terms an encoding can hold: register numbers are 0 to 31
(40_csr_access.md R75, R78; 30_encoding.md R60). The CSR address and the immediate are bounded by their types. -/

namespace Sys2Proof

/-- A general-register number an encoding can hold: 0 to 31 (40_csr_access.md R75). -/
abbrev RegNumber (n : Nat) : Prop := n < 32

/-- A well-formed instruction names only general registers that exist. -/
abbrev WellFormed : Instr → Prop
  | .csrrw rd _ rs1 => RegNumber rd ∧ RegNumber rs1
  | .csrrs rd _ rs1 => RegNumber rd ∧ RegNumber rs1
  | .csrrc rd _ rs1 => RegNumber rd ∧ RegNumber rs1
  | .csrrwi rd _ _ => RegNumber rd
  | .csrrsi rd _ _ => RegNumber rd
  | .csrrci rd _ _ => RegNumber rd

end Sys2Proof
end

