-- ==== Sys2Proof/Decode.lean ====
section
/-! DEFINITION. From instruction bytes to instructions and back (30_encoding.md R60 to R63). Decoding is total and
rejects by name; the encoder writes the words of the same table. -/

namespace Sys2Proof

/-- Why a word or a list of bytes is no CSR-access instruction. Refused, not faulted: the base instruction set is
outside the spec (00_scope.md section 3), so the spec gives such a word no effect (safe). -/
inductive DecodeError where
  /-- Fewer than the four bytes of an instruction (R60). -/
  | tooShort
  /-- The major opcode, bits 6:0, is not 0x73 (R60). -/
  | otherOpcode
  /-- The major opcode is 0x73 but `funct3` is 0 or 4, which is no CSR access (R63). -/
  | notCsrAccess
  deriving DecidableEq, Repr

/-- The SYSTEM major opcode of all six instructions (30_encoding.md R60). -/
def opcodeSystem : BitVec 7 := 0b1110011#7

/-- Bits 6:0 of an instruction word (30_encoding.md R60). -/
def opcodeField (w : BitVec 32) : BitVec 7 := w.extractLsb' 0 7

/-- Bits 11:7: the number of the destination register (30_encoding.md R60). -/
def rdField (w : BitVec 32) : BitVec 5 := w.extractLsb' 7 5

/-- Bits 14:12: `funct3` (30_encoding.md R60). -/
def funct3Field (w : BitVec 32) : BitVec 3 := w.extractLsb' 12 3

/-- Bits 19:15: `rs1` in the register forms, `uimm` in the immediate forms (30_encoding.md R60, R62). -/
def srcField (w : BitVec 32) : BitVec 5 := w.extractLsb' 15 5

/-- Bits 31:20: the CSR address (30_encoding.md R60, R61). -/
def csrField (w : BitVec 32) : BitVec 12 := w.extractLsb' 20 12

/-- The instruction a 32-bit word stands for: the match column of 30_encoding.md R63. -/
def decodeWord (w : BitVec 32) : Except DecodeError Instr :=
  if opcodeField w = opcodeSystem then
    if funct3Field w = 0b001#3 then .ok (.csrrw (rdField w).toNat (csrField w) (srcField w).toNat)
    else if funct3Field w = 0b010#3 then .ok (.csrrs (rdField w).toNat (csrField w) (srcField w).toNat)
    else if funct3Field w = 0b011#3 then .ok (.csrrc (rdField w).toNat (csrField w) (srcField w).toNat)
    else if funct3Field w = 0b101#3 then .ok (.csrrwi (rdField w).toNat (csrField w) (srcField w))
    else if funct3Field w = 0b110#3 then .ok (.csrrsi (rdField w).toNat (csrField w) (srcField w))
    else if funct3Field w = 0b111#3 then .ok (.csrrci (rdField w).toNat (csrField w) (srcField w))
    else .error .notCsrAccess
  else .error .otherOpcode

/-- The 32-bit word of four bytes, the first at the lowest address: little-endian (30_encoding.md R60). -/
def wordOfBytes (b0 b1 b2 b3 : Byte) : BitVec 32 := b3 ++ b2 ++ b1 ++ b0

/-- The four bytes of a word, lowest address first: little-endian (30_encoding.md R60). -/
def bytesOfWord (w : BitVec 32) : List Byte :=
  [w.extractLsb' 0 8, w.extractLsb' 8 8, w.extractLsb' 16 8, w.extractLsb' 24 8]

/-- The instruction at the head of a list of bytes; every instruction is four bytes long (30_encoding.md R60). -/
def decodeBytes : List Byte → Except DecodeError Instr
  | b0 :: b1 :: b2 :: b3 :: _ => decodeWord (wordOfBytes b0 b1 b2 b3)
  | _ => .error .tooShort

/-- The word of the bytes fetched, for the record of a refusal. -/
def wordOfFetched : List Byte → BitVec 32
  | b0 :: b1 :: b2 :: b3 :: _ => wordOfBytes b0 b1 b2 b3
  | _ => 0

/-- The word with the given fields, bit 31 on the left (30_encoding.md R60). -/
def packWord (csr : BitVec 12) (src : BitVec 5) (funct3 : BitVec 3) (rd : BitVec 5) : BitVec 32 :=
  csr ++ src ++ funct3 ++ rd ++ opcodeSystem

/-- The word of an instruction (30_encoding.md R63). A register number of an ill-formed term loses what its five
bits cannot hold (assumption 15). -/
def encode : Instr → BitVec 32
  | .csrrw rd csr rs1 => packWord csr (BitVec.ofNat 5 rs1) 0b001#3 (BitVec.ofNat 5 rd)
  | .csrrs rd csr rs1 => packWord csr (BitVec.ofNat 5 rs1) 0b010#3 (BitVec.ofNat 5 rd)
  | .csrrc rd csr rs1 => packWord csr (BitVec.ofNat 5 rs1) 0b011#3 (BitVec.ofNat 5 rd)
  | .csrrwi rd csr uimm => packWord csr uimm 0b101#3 (BitVec.ofNat 5 rd)
  | .csrrsi rd csr uimm => packWord csr uimm 0b110#3 (BitVec.ofNat 5 rd)
  | .csrrci rd csr uimm => packWord csr uimm 0b111#3 (BitVec.ofNat 5 rd)

/-- The bytes of an instruction, lowest address first. -/
def encodeBytes (i : Instr) : List Byte := bytesOfWord (encode i)

/-- The 32-bit word of an instruction given as the opcode table numbers its bits: `nbits` bits of `w`, every bit
above them 0. -/
def tableWord (nbits w : Nat) : BitVec 32 := BitVec.ofNat 32 (w % 2 ^ nbits)

/-- The instruction the decoder reads from a word of the opcode table, stored as the hardware stores it. -/
def decodeTableWord (nbits w : Nat) : Option Instr :=
  match decodeBytes (bytesOfWord (tableWord nbits w)) with
  | .ok i => some i
  | .error _ => none

end Sys2Proof
end

