-- ==== Sys2Proof/Config.lean ====
section
/-! DEFINITION. What an implementation fixes (00_scope.md section 4) and the values the spec leaves open. -/

namespace Sys2Proof

/-- The current privilege mode: M, or not M. The source names no other mode and the spec treats the others as one
class (60_exceptions.md R93, 92_eei_decisions.md D23). -/
inductive Priv where
  | machine
  | other
  deriving DecidableEq, Repr

/-- The address-matching mode A, bits 4:3 of a configuration byte (10_state.md R19). -/
inductive AMode where
  | off
  | tor
  | na4
  | napot
  deriving DecidableEq, Repr

/-- The kinds of memory access the permission bits speak of (20_memory.md R43 to R45). -/
inductive AccessKind where
  | fetch
  | load
  | store
  | amo
  deriving DecidableEq, Repr

/-- One memory access: its kind, the privilege mode it is made in, its address and its size in bytes
(20_memory.md R42, R47). -/
structure Access where
  kind : AccessKind
  priv : Priv
  addr : Nat
  size : Nat
  deriving DecidableEq, Repr

/-- One of the eight fields of the register: field `k` is `pmp(40+k)cfg` (10_state.md R14). -/
abbrev Field := Fin 8

/-- The number N of the PMP entry a field configures (10_state.md R14). -/
def Field.entry (k : Field) : Nat := 40 + k.val

/-- A piece of the relation `PmpMatch(N, a, addr, size)` of 20_memory.md R47: under matching mode `mode`, every
access of `size` bytes at an address from `first` to `last` lies in the region of entry `entry`. A list of such
rows can write down any relation over finitely many addresses and sizes. -/
structure MatchRow where
  entry : Nat
  mode  : AMode
  first : Nat
  last  : Nat
  size  : Nat
  deriving DecidableEq, Repr

/-- A piece of the rule that picks, for an access, the one entry whose verdict counts (20_memory.md R47,
60_exceptions.md R96): for the access `access`, when the fields it matches are exactly `matching`, the entry of field
`pick` counts. For an access and matching fields that no row speaks of, none of the eight entries counts. -/
structure PickRow where
  access   : Access
  matching : List Field
  pick     : Field
  deriving DecidableEq, Repr

/-- The cause codes, named parameters with the defaults of 60_exceptions.md R91. No rule computes with them. -/
structure ExcCodes where
  insnAccessFault     : Nat := 1
  illegalInsn         : Nat := 2
  loadAccessFault     : Nat := 5
  storeAmoAccessFault : Nat := 7
  deriving DecidableEq, Repr

/-- The parameters of the machine, fixed for its life (00_scope.md section 4). They are plain data, so that a claim
about every state is a claim about every machine. -/
structure Params where
  /-- `Smpmp` is implemented (00_scope.md R2). -/
  smpmp          : Bool
  /-- `NUM_PMP_ENTRIES` (00_scope.md R3): a natural number without a range. -/
  numPmpEntries  : Nat
  /-- `PMP_GRANULARITY` (00_scope.md R3, 90_conflicts.md C3): a natural number without a unit, compared with 2 only. -/
  pmpGranularity : Nat
  /-- The relation `PmpMatch`, from outside the spec (20_memory.md R47). -/
  pmpMatch       : List MatchRow
  /-- The rule that picks the entry that counts, from outside the spec (20_memory.md R47). -/
  pmpPick        : List PickRow
  /-- The cause codes (60_exceptions.md R91). -/
  codes          : ExcCodes
  deriving DecidableEq, Repr

/-- The implementation's `NUM_PMP_ENTRIES`: open (92_eei_decisions.md D4; assumption 1). -/
opaque Config.numPmpEntries : Nat

/-- The implementation's `PMP_GRANULARITY`: open (92_eei_decisions.md D5; assumption 1). -/
opaque Config.pmpGranularity : Nat

/-- The byte that the reset made at a given tick draws for a PMP entry, before it is made legal
(10_state.md R26, 92_eei_decisions.md D6; assumption 4). The first argument is the tick, the second the entry. -/
opaque Config.resetDraw : Nat → Nat → Byte

/-- The upper half that a general register is left with when a 32-bit value with bit 31 set is written to it at a
given tick: the spec states none (assumption 8). -/
opaque Config.freeUpperX : Nat → BitVec 32

/-- The same for the program counter (assumption 8). -/
opaque Config.freeUpperPc : Nat → BitVec 32

/-- The parameters of this machine: `Smpmp` presupposed (92_eei_decisions.md D11), the two numbers open, matching and
picking empty (assumption 17), the codes at their defaults (R91). -/
def Config.params : Params :=
  { smpmp := true
    numPmpEntries := Config.numPmpEntries
    pmpGranularity := Config.pmpGranularity
    pmpMatch := []
    pmpPick := []
    codes := {} }

end Sys2Proof
end

