-- ==== Sys2Proof/Machine/CfgByte.lean ====
section
/-! DEFINITION. The configuration byte and the register as a view of the eight bytes: sub-fields, legality, the
software write of one field, the reset value of one field, and the primitives `CsrRead` and `CsrWrite`. -/

namespace Sys2Proof.Machine

/-- The stored configuration bytes `cfg[40]` to `cfg[47]`, field 0 first (10_state.md R10). -/
abbrev Cells := Vector Byte 8

/-- The eight fields, entry 40 first (10_state.md R14). -/
def allFields : List Field := [0, 1, 2, 3, 4, 5, 6, 7]

/-! ### Sub-fields (10_state.md R16 to R21) -/

/-- L, bit 7: the entry is locked (R17). -/
def bitL (b : Byte) : Bool := b.getLsbD 7

/-- The reserved bits 6:5 (R18). -/
def reservedBits (b : Byte) : BitVec 2 := b.extractLsb' 5 2

/-- A, bits 4:3, as bits (R19). -/
def modeBits (b : Byte) : BitVec 2 := b.extractLsb' 3 2

/-- X, bit 2: execute permission (R20). -/
def bitX (b : Byte) : Bool := b.getLsbD 2

/-- W, bit 1: write permission (R20). -/
def bitW (b : Byte) : Bool := b.getLsbD 1

/-- R, bit 0: read permission (R20). -/
def bitR (b : Byte) : Bool := b.getLsbD 0

/-- The address-matching mode a value of A names (R19). -/
def modeOfBits (a : BitVec 2) : AMode :=
  if a = 0#2 then .off else if a = 1#2 then .tor else if a = 2#2 then .na4 else .napot

/-- The address-matching mode of a configuration byte (R19). -/
def matchMode (b : Byte) : AMode := modeOfBits (modeBits b)

/-! ### Legality (10_state.md R19, R21, R22) -/

/-- The reserved combination R = 0 with W = 1 (R21). -/
abbrev ReservedPermission (b : Byte) : Prop := bitR b = false ∧ bitW b = true

/-- A = NA4 where the granularity does not allow it, the source's formal condition taken as written
(R19, 90_conflicts.md C3). -/
abbrev Na4TooFine (p : Params) (b : Byte) : Prop := 2 ≤ p.pmpGranularity ∧ modeBits b = 2#2

/-- `Legal(b)` (R22). -/
abbrev Legal (p : Params) (b : Byte) : Prop :=
  ¬ ReservedPermission b ∧ ¬ Na4TooFine p b ∧ reservedBits b = 0#2

/-- Entry N is implemented, so that its field has type `RW-R`; otherwise its type is `RO` (R23). -/
abbrev Implemented (p : Params) (n : Nat) : Prop := n < p.numPmpEntries

/-! ### Writing one field (40_csr_access.md R71) -/

/-- What an accepted write stores: L, A, X, W, R from software, the reserved bits kept
(R71 last line, 90_conflicts.md C1). -/
def acceptedByte (old new : Byte) : Byte :=
  new.extractLsb' 7 1 ++ reservedBits old ++ new.extractLsb' 0 5

/-- `WriteField(N, old, new)`: the byte the cell of entry `n` holds after software presents `new` (R71). -/
def writeField (p : Params) (n : Nat) (old new : Byte) : Byte :=
  if ¬ Implemented p n then 0x00#8
  else if bitL old = true then old
  else if ReservedPermission new then old
  else if Na4TooFine p new then old
  else acceptedByte old new

/-! ### Reset of one field (10_state.md R26) -/

/-- The reset value of the field of entry `n` for a drawn byte: 0 for an unimplemented entry, the draw where it is
legal, and 0 (which is legal) in place of an illegal draw, so that exactly the legal bytes can come out (R26). -/
def resetByte (p : Params) (n : Nat) (draw : Byte) : Byte :=
  if ¬ Implemented p n then 0x00#8 else if Legal p draw then draw else 0x00#8

/-- Every cell at the reset value its draw gives; the draws are given by entry number (R26, R100). -/
def resetCells (p : Params) (draw : Nat → Byte) : Cells :=
  Vector.ofFn fun k : Field => resetByte p k.entry (draw k.entry)

/-! ### The register (10_state.md R14, R15, R25; 40_csr_access.md R70, R72) -/

/-- The field is part of the register at this length: fields 40 to 43 at 32 bits, all eight at 64 (R15). -/
abbrev InView (m : Mxl) (k : Field) : Prop := m = .one ∨ k.val < 4

/-- The slice of a register value that lies at a field: bits `8k+7 : 8k` (R14). -/
def slice {w : Nat} (v : BitVec w) (k : Field) : Byte := v.extractLsb' (8 * k.val) 8

/-- `CsrRead(mxl)`: the value of the register, entry 40 in the least significant byte (R25, R70). -/
def csrRead (m : Mxl) (cells : Cells) : BitVec m.len :=
  match m with
  | .zero => (cells[3] ++ cells[2] ++ cells[1] ++ cells[0] : BitVec 32)
  | .one =>
    (cells[7] ++ cells[6] ++ cells[5] ++ cells[4] ++ cells[3] ++ cells[2] ++ cells[1] ++ cells[0] : BitVec 64)

/-- `CsrWrite(mxl, v)`: every field of the register at once, each from its own old value and its own slice; the
cells outside the register are unchanged (R72). -/
def csrWrite (p : Params) (m : Mxl) (v : BitVec m.len) (cells : Cells) : Cells :=
  Vector.ofFn fun k : Field =>
    if InView m k then writeField p k.entry cells[k] (slice v k) else cells[k]

end Sys2Proof.Machine
end

