-- ==== Sys2Proof/Machine/Memory.lean ====
section
/-! DEFINITION. The memory instructions are fetched from: a list of address and byte pairs, addresses strictly
rising. The spec gives no memory map and no memory contents (20_memory.md R52), so a byte nothing has placed has no
value (assumption 11). The register itself is not in memory (20_memory.md R40). -/

namespace Sys2Proof.Machine

/-- Memory: the bytes that have been placed, by address. -/
abbrev Memory := List Host.Cell

/-- The canonical form: addresses strictly rising. An unlisted byte has no value, so no entry can equal it. -/
abbrev Memory.wf (mem : Memory) : Prop := mem.Pairwise fun x y => x.1 < y.1

/-- One byte of memory, if it has been placed. -/
def readByte : Memory → Nat → Option Byte
  | [], _ => none
  | (k, b) :: rest, a => if k = a then some b else readByte rest a

/-- Places one byte, keeping the canonical form. -/
def writeByte : Memory → Nat → Byte → Memory
  | [], a, b => [(a, b)]
  | (k, c) :: rest, a, b =>
    if a < k then (a, b) :: (k, c) :: rest
    else if a = k then (a, b) :: rest
    else (k, c) :: writeByte rest a b

/-- Places bytes at consecutive addresses, the first at the given one. -/
def writeBytes : Memory → Nat → List Byte → Memory
  | mem, _, [] => mem
  | mem, a, b :: bs => writeBytes (writeByte mem a b) (a + 1) bs

end Sys2Proof.Machine
end

