-- ==== Sys2Proof/Machine/State.lean ====
section
/-! DEFINITION. The state of the machine, the ways a step can stop, and the state after reset. -/

namespace Sys2Proof.Machine

/-- The exceptions of the spec (60_exceptions.md R90, R92). -/
inductive Exception where
  /-- Access Fault, instruction kind: raised by an instruction fetch (20_memory.md R43). -/
  | insnAccessFault
  /-- Access Fault, load kind: raised by a load (20_memory.md R45). -/
  | loadAccessFault
  /-- Access Fault, store/AMO kind: raised by a store or an AMO (20_memory.md R44). -/
  | storeAmoAccessFault
  /-- `IllegalInstruction(insn)`: raised by a refused CSR access (40_csr_access.md R81), with the instruction word
  (assumption 12). -/
  | illegalInstruction (insn : BitVec 32)
  deriving DecidableEq, Repr

/-- Why the machine stops with a fault. -/
inductive Fault where
  /-- An exception of the spec. The spec ends the step with the outcome `Fault(E)` and leaves trap entry out
  (60_exceptions.md R94, 92_eei_decisions.md D18), so this is the spec's own outcome. Raised by a CSR access and by the
  check of an instruction fetch. Safe: a run that a handler would continue is given no meaning. -/
  | exception (e : Exception)
  /-- An instruction is fetched from a byte of memory that nothing has placed. Raised by the fetch. Safe: the spec gives
  memory no contents (20_memory.md R52; assumption 11). -/
  | unplacedByte (addr : Nat)
  deriving DecidableEq, Repr

/-- Why the machine gives a step no meaning. -/
inductive Refusal where
  /-- Raised by an arm of `exec` for an instruction without a meaning; no arm answers it now. Safe. -/
  | notModelled (mnemonic : String)
  /-- The word fetched is none of the six instructions. Raised by the step. Safe: the base instruction set is outside
  the spec (00_scope.md section 3; assumption 13). -/
  | notDecoded (why : DecodeError) (insn : BitVec 32)
  /-- The program counter is not a multiple of 4. Raised by the fetch. Safe: the spec describes the fetch of an
  instruction at a 4-byte-aligned `pc` only (30_encoding.md R60; assumption 13). -/
  | misalignedPc (addr : Nat)
  /-- A CSR access to a register other than `pmpcfg10` that the address itself does not make illegal. Raised by a
  CSR-access instruction. Safe: every other CSR is outside the spec (00_scope.md section 3; assumption 14). -/
  | otherCsr (csr : BitVec 12)
  deriving DecidableEq, Repr

/-- What the machine around the register may do between two instructions. -/
inductive EnvEvent where
  /-- Nothing. -/
  | hold
  /-- The input `mxl` takes a value (00_scope.md R4, 10_state.md R28). -/
  | setMxl (m : Mxl)
  /-- The privilege mode changes, as trap entry and return do (60_exceptions.md R93, R94); what else that does is open
  (assumption 22). -/
  | setPriv (p : Priv)
  /-- A reset (70_reset_and_hazards.md R100). -/
  | reset
  deriving DecidableEq, Repr

/-- The whole state of the machine. The spec's own state is `cfg`; the registers, `pc`, `priv`, `mxl` and `mem` are the
environment of the CSR-access instructions (10_state.md section 8); `params`, `env` and `tick` are the model's. -/
structure State where
  /-- The configuration bytes `cfg[40]` to `cfg[47]` (10_state.md R10). -/
  cfg    : Cells
  /-- General registers `x[0]` to `x[31]`; `x[0]` reads as zero whatever stands here (10_state.md section 8). -/
  regs   : Vector XWord 32
  /-- The program counter (10_state.md section 8). -/
  pc     : XWord
  /-- The current privilege mode (60_exceptions.md R93). -/
  priv   : Priv
  /-- The input `mxl` of the accesses made now (00_scope.md R4). -/
  mxl    : Mxl
  /-- The parameters, which no step changes (00_scope.md section 4; assumption 1). -/
  params : Params
  /-- The memory instructions are fetched from (30_encoding.md R60). -/
  mem    : Memory
  /-- What the environment does after each of the next instructions, in order; nothing once the list is empty
  (assumption 3). -/
  env    : List EnvEvent
  /-- The number of steps taken, the first reset counted as one: the argument of the free values (assumptions 4, 8). -/
  tick   : Nat
  deriving DecidableEq, Repr

/-- The machine right after reset: the cells as 10_state.md R26 says for the draws of tick 0, the mode M (R100,
assumption 7), and the values that assumptions 3, 5 and 6 name for what the spec gives no value. -/
def State.reset : State :=
  { cfg := resetCells Config.params (Config.resetDraw 0)
    regs := Vector.replicate 32 XWord.zero
    pc := XWord.zero
    priv := .machine
    mxl := .zero
    params := Config.params
    mem := []
    env := []
    tick := 1 }

end Sys2Proof.Machine
end

