-- ==== Sys2Proof/Machine/Ops.lean ====
section
/-! DEFINITION. The named operations over registers, program counter, memory checks and environment, and raising an
exception. -/

namespace Sys2Proof.Machine

/-! ### General registers and program counter (00_scope.md 5.2, 10_state.md section 8) -/

/-- The `LEN(mxl)` bits of a register that are seen under `mxl`. -/
def readXWord (m : Mxl) (r : XWord) : BitVec m.len :=
  match m with
  | .zero => r.lo
  | .one => r.hi ++ r.lo

/-- A register after `LEN(mxl)` bits are written to it. A 32-bit write leaves the upper half 0 where bit 31 of the value
is clear, as program P6 of 95_test_vectors.md shows, and at the free value `free` where it is set (assumption 8). -/
def writeXWord (m : Mxl) (v : BitVec m.len) (free : BitVec 32) : XWord :=
  match m with
  | .zero => { lo := v, hi := if v.getLsbD 31 then free else 0 }
  | .one => { lo := v.extractLsb' 0 32, hi := v.extractLsb' 32 32 }

/-- `x[n]` under `mxl`: register 0 reads 0 (00_scope.md 5.2). -/
def readX (m : Mxl) (n : Nat) (s : State) : BitVec m.len :=
  if n = 0 then 0 else readXWord m (s.regs[n]?.getD XWord.zero)

/-- `x[n] <- v` under `mxl`: a write to register 0 is discarded (00_scope.md 5.2). -/
def writeX (m : Mxl) (n : Nat) (v : BitVec m.len) (s : State) : State :=
  if n = 0 then s
  else { s with regs := s.regs.setIfInBounds n (writeXWord m v (Config.freeUpperX s.tick)) }

/-- `pc <- pc + 4`, wrapping modulo `2^XLEN` (40_csr_access.md R75 and section 5). -/
def advancePc (m : Mxl) (s : State) : State :=
  { s with pc := writeXWord m (readXWord m s.pc + 4) (Config.freeUpperPc s.tick) }

/-- The address an instruction is fetched at: the `XLEN` bits of `pc`. -/
def fetchAddr (s : State) : Nat := (readXWord s.mxl s.pc).toNat

/-! ### Exceptions (60_exceptions.md) -/

/-- Taking an exception: `raise E(info)` ends the step with the outcome `Fault(E)` and the state as before the step
(60_exceptions.md R94, 00_scope.md 5.2). What follows it is outside the spec: there is no trap entry and no return. -/
def raiseException {σ : Type} (e : Exception) : Host.Outcome σ Fault Refusal := .fault (.exception e)

/-- The cause code of an exception (60_exceptions.md R91). -/
def excCode (c : ExcCodes) : Exception → Nat
  | .insnAccessFault => c.insnAccessFault
  | .loadAccessFault => c.loadAccessFault
  | .storeAmoAccessFault => c.storeAmoAccessFault
  | .illegalInstruction _ => c.illegalInsn

/-! ### What the configuration bytes do to memory accesses (20_memory.md section 2) -/

/-- The checks of an entry apply to an access made in a mode other than M, and to one made in M exactly when L = 1
(20_memory.md R42). -/
def checksApply (b : Byte) (p : Priv) : Bool := p == .other || bitL b

/-- The permission bit an access of each kind needs (20_memory.md R43 to R45). -/
def permissionBit (b : Byte) : AccessKind → Bool
  | .fetch => bitX b
  | .load => bitR b
  | .store => bitW b
  | .amo => bitW b

/-- The Access Fault of each kind of access (60_exceptions.md R90). -/
def accessFault : AccessKind → Exception
  | .fetch => .insnAccessFault
  | .load => .loadAccessFault
  | .store => .storeAmoAccessFault
  | .amo => .storeAmoAccessFault

/-- What an entry whose verdict counts raises for an access: an Access Fault when its checks apply and the permission bit
is clear, otherwise nothing (20_memory.md R43 to R45). -/
def entryVerdict (b : Byte) (a : Access) : Option Exception :=
  if checksApply b a.priv && !permissionBit b a.kind then some (accessFault a.kind) else none

/-- `PmpMatch(N, a, addr, size)`: what the parameter says, but that mode OFF matches nothing
(20_memory.md R46, R47). -/
def pmpMatches (p : Params) (n : Nat) (mode : AMode) (a : Access) : Bool :=
  p.pmpMatch.any (fun r =>
    r.entry == n && r.first ≤ a.addr && a.addr ≤ r.last && r.size == a.size && r.mode == mode) && mode != .off

/-- The fields whose entries an access matches under the cells as they are now (20_memory.md R47, R51). -/
def matchingFields (s : State) (a : Access) : List Field :=
  allFields.filter fun k => pmpMatches s.params k.entry (matchMode s.cfg[k]) a

/-- The field whose verdict counts for an access, if any: one of the matching fields, as the parameter picks
(20_memory.md R47, 60_exceptions.md R96). -/
def selectedField (s : State) (a : Access) : Option Field :=
  let ks := matchingFields s a
  match s.params.pmpPick.find? fun r => r.access == a && r.matching == ks with
  | none => none
  | some r => if r.pick ∈ ks then some r.pick else none

/-- What the register raises for a memory access made in this state; without `Smpmp` there is no register to raise
anything (20_memory.md R42 to R47, R51; 00_scope.md R2; assumption 17). -/
def pmpVerdict (s : State) (a : Access) : Option Exception :=
  if s.params.smpmp then
    match selectedField s a with
    | none => none
    | some k => entryVerdict s.cfg[k] a
  else none

/-- A memory access under its check: an Access Fault is raised in place of the access, which is not performed
(60_exceptions.md R90); otherwise the access is performed (assumption 18). -/
def guardAccess {σ : Type} (s : State) (a : Access) (access : Host.Outcome σ Fault Refusal) :
    Host.Outcome σ Fault Refusal :=
  match pmpVerdict s a with
  | some e => raiseException e
  | none => access

/-! ### Fetching an instruction (30_encoding.md R60) -/

/-- Bytes of memory at consecutive addresses; a byte nothing has placed stops the machine (assumption 11). -/
def readBytes (mem : Memory) : Nat → Nat → Host.Outcome (List Byte) Fault Refusal
  | _, 0 => .next []
  | a, n + 1 =>
    match readByte mem a with
    | none => .fault (.unplacedByte a)
    | some b =>
      match readBytes mem (a + 1) n with
      | .next bs => .next (b :: bs)
      | .fault f => .fault f
      | .refused r => .refused r

/-- The access that fetches the instruction at `pc`: four bytes, in the current mode (30_encoding.md R60). -/
def fetchAccess (s : State) : Access := { kind := .fetch, priv := s.priv, addr := fetchAddr s, size := 4 }

/-- The bytes of the instruction at `pc`, under the check of the fetch (30_encoding.md R60, 20_memory.md R43). -/
def fetchBytes (s : State) : Host.Outcome (List Byte) Fault Refusal :=
  if fetchAddr s % 4 = 0 then guardAccess s (fetchAccess s) (readBytes s.mem (fetchAddr s) 4)
  else .refused (.misalignedPc (fetchAddr s))

/-! ### The environment between two instructions -/

/-- A reset while the machine runs: every cell is redrawn (70_reset_and_hazards.md R100, 92_eei_decisions.md D22), the
mode becomes M, and registers and `pc` take the values they have in `State.reset`; the input `mxl`, the parameters, the
memory and the environment stay (assumption 16). -/
def resetTransition (s : State) : State :=
  { s with
    cfg := resetCells s.params (Config.resetDraw s.tick)
    regs := Vector.replicate 32 XWord.zero
    pc := XWord.zero
    priv := .machine }

/-- What one event of the environment does. A change of `mxl` changes no cell (10_state.md R28); a change of mode
changes no cell (60_exceptions.md section 4). DESIGN CHOICE: each keeps everything else as well, `pc` and the general
registers among it, which the spec leaves open (assumption 10 for `mxl`, assumption 22 for the mode). -/
def applyEvent (e : EnvEvent) (s : State) : State :=
  match e with
  | .hold => s
  | .setMxl m => { s with mxl := m }
  | .setPriv p => { s with priv := p }
  | .reset => resetTransition s

/-- The event the environment makes after the present instruction. -/
def nextEvent (s : State) : EnvEvent := s.env.head?.getD .hold

/-- What follows an instruction: the next event of the environment, taken off its list, and the tick. -/
def endStep (s : State) : State :=
  let t := applyEvent (nextEvent s) s
  { t with env := s.env.tail, tick := s.tick + 1 }

end Sys2Proof.Machine
end

