-- ==== Sys2Proof/Machine/Operands.lean ====
section
/-! DEFINITION. The two operand forms (30_encoding.md R62), the access check (40_csr_access.md R81) and the access that
all six instructions share (40_csr_access.md section 3). There is no flag in this hardware, so there is no file of flag
computations (10_state.md section 8). -/

namespace Sys2Proof.Machine

/-- The address of `pmpcfg10` (10_state.md R11). -/
def pmpcfg10Address : BitVec 12 := 0x3aa#12

/-- The register operand: the whole of `x[rs1]`, `LEN(mxl)` bits (30_encoding.md R62). -/
def registerOperand (m : Mxl) (rs1 : Nat) (s : State) : BitVec m.len := readX m rs1 s

/-- The immediate operand: the five bits zero-extended to `LEN(mxl)` (30_encoding.md R62). -/
def immediateOperand (m : Mxl) (uimm : BitVec 5) : BitVec m.len := uimm.setWidth m.len

/-- `AccessAllowed()` (40_csr_access.md R81). -/
def accessAllowed (s : State) : Bool := s.params.smpmp && s.priv == .machine

/-- Bits 11:10 of a CSR address are 0b11: the register is read-only (30_encoding.md R64). -/
def csrReadOnly (csr : BitVec 12) : Bool := csr.extractLsb' 10 2 == 0b11#2

/-- Bits 9:8 of a CSR address are 0b11: M is the lowest mode that may access it (30_encoding.md R64). -/
def csrMachineOnly (csr : BitVec 12) : Bool := csr.extractLsb' 8 2 == 0b11#2

/-- The address alone makes the access illegal: a machine-mode register from another mode, or a write of a read-only
register (30_encoding.md R64; assumption 14). -/
def illegalByAddress (csr : BitVec 12) (writes : Bool) (p : Priv) : Bool :=
  (csrMachineOnly csr && p == .other) || (csrReadOnly csr && writes)

/-- One CSR access as one atomic step (40_csr_access.md R75 to R81): the check; the old value; where the form writes, the
value presented, judged field by field; the old value to `x[rd]`; `pc + 4`. An access to another CSR is illegal where its
address says so, and otherwise outside the spec (30_encoding.md R61, R64; assumption 14). -/
def accessCsr (i : Instr) (csr : BitVec 12) (rd : Nat) (writes : Bool) (s : State)
    (present : BitVec s.mxl.len → BitVec s.mxl.len) : Host.Outcome State Fault Refusal :=
  if csr = pmpcfg10Address then
    if accessAllowed s then
      let old := csrRead s.mxl s.cfg
      let cells := if writes then csrWrite s.params s.mxl (present old) s.cfg else s.cfg
      .next (advancePc s.mxl (writeX s.mxl rd old { s with cfg := cells }))
    else raiseException (.illegalInstruction (encode i))
  else if illegalByAddress csr writes s.priv then raiseException (.illegalInstruction (encode i))
  else .refused (.otherCsr csr)

end Sys2Proof.Machine
end

