-- ==== Sys2Proof/Machine/Csr.lean ====
section
/-! DEFINITION. The meanings of the six CSR-access instructions (40_csr_access.md R75 to R80). -/

namespace Sys2Proof.Machine

/-- `csrrw` (40_csr_access.md R75): presents `x[rs1]`, always. -/
def execCsrrw (rd : Nat) (csr : BitVec 12) (rs1 : Nat) (s : State) : Host.Outcome State Fault Refusal :=
  accessCsr (.csrrw rd csr rs1) csr rd true s fun _ => registerOperand s.mxl rs1 s

/-- `csrrs` (R76): presents `old | x[rs1]`, unless `rs1` is register 0. -/
def execCsrrs (rd : Nat) (csr : BitVec 12) (rs1 : Nat) (s : State) : Host.Outcome State Fault Refusal :=
  accessCsr (.csrrs rd csr rs1) csr rd (rs1 != 0) s fun old => old ||| registerOperand s.mxl rs1 s

/-- `csrrc` (R77): presents `old & ~x[rs1]`, unless `rs1` is register 0. -/
def execCsrrc (rd : Nat) (csr : BitVec 12) (rs1 : Nat) (s : State) : Host.Outcome State Fault Refusal :=
  accessCsr (.csrrc rd csr rs1) csr rd (rs1 != 0) s fun old => old &&& ~~~ registerOperand s.mxl rs1 s

/-- `csrrwi` (R78): presents the immediate, always. -/
def execCsrrwi (rd : Nat) (csr : BitVec 12) (uimm : BitVec 5) (s : State) : Host.Outcome State Fault Refusal :=
  accessCsr (.csrrwi rd csr uimm) csr rd true s fun _ => immediateOperand s.mxl uimm

/-- `csrrsi` (R79): presents `old | uimm`, unless the immediate is 0. -/
def execCsrrsi (rd : Nat) (csr : BitVec 12) (uimm : BitVec 5) (s : State) : Host.Outcome State Fault Refusal :=
  accessCsr (.csrrsi rd csr uimm) csr rd (uimm != 0) s fun old => old ||| immediateOperand s.mxl uimm

/-- `csrrci` (R80): presents `old & ~uimm`, unless the immediate is 0. -/
def execCsrrci (rd : Nat) (csr : BitVec 12) (uimm : BitVec 5) (s : State) : Host.Outcome State Fault Refusal :=
  accessCsr (.csrrci rd csr uimm) csr rd (uimm != 0) s fun old => old &&& ~~~ immediateOperand s.mxl uimm

end Sys2Proof.Machine
end

