-- ==== Sys2Proof/Machine/Step.lean ====
section
/-! DEFINITION. One step: fetch the bytes at `pc`, decode them, run the instruction, then the environment's event. -/

namespace Sys2Proof.Machine

/-- One step of the machine. -/
def step (s : State) : Host.Outcome State Fault Refusal :=
  match fetchBytes s with
  | .fault f => .fault f
  | .refused r => .refused r
  | .next bytes =>
    match decodeBytes bytes with
    | .error why => .refused (.notDecoded why (wordOfFetched bytes))
    | .ok i =>
      match exec i s with
      | .next t => .next (endStep t)
      | .fault f => .fault f
      | .refused r => .refused r

/-- The state with an instruction of the opcode table stored where the next fetch reads it: the four bytes at `pc`. A
program is loaded from outside the machine, and this stands for that load (assumption 21). -/
def State.withFetchWord (s : State) (nbits w : Nat) : State :=
  { s with mem := writeBytes s.mem (fetchAddr s) (bytesOfWord (tableWord nbits w)) }

end Sys2Proof.Machine
end

