-- ==== Sys2Proof/Safety.lean ====
section
/-! DEFINITION. The terms the statements use: the invariant of the machine, the frame of a CSR access, the value an
instruction presents, and what it is to leave the register untouched or to look the same through it. -/

namespace Sys2Proof.Machine

/-- Every stored configuration byte is legal, and 0 where the entry is unimplemented (10_state.md R27). -/
abbrev CellsLegal (p : Params) (cells : Cells) : Prop :=
  ∀ k : Field, Legal p cells[k] ∧ (¬ Implemented p k.entry → cells[k] = 0x00#8)

/-- The program counter is a multiple of 4 (30_encoding.md R60). -/
abbrev PcAligned (s : State) : Prop := s.pc.lo.extractLsb' 0 2 = 0#2

/-- The invariant of the machine: legal cells, memory in canonical form, an aligned program counter. -/
abbrev Inv (s : State) : Prop := CellsLegal s.params s.cfg ∧ s.mem.wf ∧ PcAligned s

/-- The entry of a field is locked (10_state.md R17). -/
abbrev Locked (s : State) (k : Field) : Prop := bitL s.cfg[k] = true

/-- Software may access the register: `Smpmp` is implemented and the mode is M (40_csr_access.md R81). -/
abbrev MayAccess (s : State) : Prop := s.params.smpmp = true ∧ s.priv = .machine

/-- What a completed access to the register does apart from the cells: the old value of the register in `x[rd]` (nothing
where `rd` is 0), `pc + 4`, and nothing else (40_csr_access.md R75 to R80). Memory is compared byte by byte. -/
abbrev AccessFrame (rd : Nat) (s t : State) : Prop :=
  readX s.mxl rd t = (if rd = 0 then 0 else csrRead s.mxl s.cfg) ∧
  readXWord s.mxl t.pc = readXWord s.mxl s.pc + 4 ∧
  (∀ (m : Mxl) (n : Nat), n ≠ rd → readX m n t = readX m n s) ∧
  (rd = 0 → t.regs = s.regs) ∧
  (∀ a : Nat, readByte t.mem a = readByte s.mem a) ∧
  t.priv = s.priv ∧ t.mxl = s.mxl ∧ t.params = s.params ∧ t.env = s.env ∧ t.tick = s.tick

/-- The value an instruction presents to the register, from the old value and the general registers
(40_csr_access.md section 4). -/
def presented (i : Instr) (m : Mxl) (x : Nat → BitVec m.len) (old : BitVec m.len) : BitVec m.len :=
  match i with
  | .csrrw _ _ rs1 => x rs1
  | .csrrs _ _ rs1 => old ||| x rs1
  | .csrrc _ _ rs1 => old &&& ~~~ x rs1
  | .csrrwi _ _ uimm => immediateOperand m uimm
  | .csrrsi _ _ uimm => old ||| immediateOperand m uimm
  | .csrrci _ _ uimm => old &&& ~~~ immediateOperand m uimm

/-- An outcome with the cells of its next state replaced; a stop stays as it is. -/
def withCells (cells : Cells) : Host.Outcome State Fault Refusal → Host.Outcome State Fault Refusal
  | .next t => .next { t with cfg := cells }
  | .fault f => .fault f
  | .refused r => .refused r

/-- An instruction does not access the register in a state: from every other contents of the cells its outcome is the same
but for those cells, so that it neither shows nor changes them (30_encoding.md R61). -/
abbrev RegisterUntouched (i : Instr) (s : State) : Prop :=
  ∀ cells : Cells, exec i { s with cfg := cells } = withCells cells (exec i s)

/-- Two states differ at most in the cells that are not part of the register under their `mxl` (10_state.md R15). -/
abbrev SameInView (s t : State) : Prop :=
  t = { s with cfg := t.cfg } ∧ ∀ k : Field, InView s.mxl k → t.cfg[k] = s.cfg[k]

/-- No reset lies ahead in the environment's events. -/
abbrev NoResetAhead (s : State) : Prop := ∀ e ∈ s.env, e ≠ EnvEvent.reset

/-- The write function of the source, transcribed with its masks (40_csr_access.md R71, the verbatim text; R5 for its
reading): `old` is `CSR[pmpcfg10].pmpNcfg`, `new` is `csr_value.pmpNcfg`. -/
def sourceWrite (pmpGranularity : Nat) (old new : Byte) : Byte :=
  if old &&& 0x80#8 = 0 then
    if ¬ (new &&& 0x1#8 = 0 ∧ new &&& 0x2#8 = 0x2#8) then
      if pmpGranularity < 2 ∨ new &&& 0x18#8 ≠ 0x10#8 then new else old
    else old
  else old

end Sys2Proof.Machine
end

