-- ==== Sys2Proof/Certificates/Slice0/Obligations.lean ====
section
/-! DEFINITION. The statements for the provers. Each docstring names the rule or the section of spec/ it formalises. -/

open Sys2Proof Sys2Proof.Machine

/-! ### Encoding -/

/-- Decoding the bytes of any well-formed instruction gives it back (30_encoding.md sections 1 and 3). -/
def Obligations.DecodeOfEncodeGivesInstructionBack : Prop :=
  ∀ i : Instr, WellFormed i → decodeBytes (encodeBytes i) = .ok i

/-- Every word that decodes is the encoding of the well-formed instruction it decodes to, so each word has one meaning
(30_encoding.md section 3). -/
def Obligations.EncodeOfDecodeGivesWordBack : Prop :=
  ∀ (w : BitVec 32) (i : Instr), decodeWord w = .ok i → encode i = w ∧ WellFormed i

/-- The match and mask columns of the opcode table, generic form (30_encoding.md section 3). -/
def Obligations.DecodingFollowsMatchAndMask : Prop :=
  ∀ w : BitVec 32,
    ((∃ rd csr rs1, decodeWord w = .ok (.csrrw rd csr rs1)) ↔ w &&& 0x0000707f#32 = 0x00001073#32) ∧
    ((∃ rd csr rs1, decodeWord w = .ok (.csrrs rd csr rs1)) ↔ w &&& 0x0000707f#32 = 0x00002073#32) ∧
    ((∃ rd csr rs1, decodeWord w = .ok (.csrrc rd csr rs1)) ↔ w &&& 0x0000707f#32 = 0x00003073#32) ∧
    ((∃ rd csr uimm, decodeWord w = .ok (.csrrwi rd csr uimm)) ↔ w &&& 0x0000707f#32 = 0x00005073#32) ∧
    ((∃ rd csr uimm, decodeWord w = .ok (.csrrsi rd csr uimm)) ↔ w &&& 0x0000707f#32 = 0x00006073#32) ∧
    ((∃ rd csr uimm, decodeWord w = .ok (.csrrci rd csr uimm)) ↔ w &&& 0x0000707f#32 = 0x00007073#32)

/-- R61: an instruction accesses this register exactly when its `csr` field is 0x3aa, which in the word is match
0x3aa00073 under mask 0xfff0007f. With that field, wherever the access is allowed, it reads the register and completes;
with any other, its outcome neither shows nor changes a cell, in any state. -/
def Obligations.AccessesRegisterExactlyByAddress : Prop :=
  ∀ (w : BitVec 32) (i : Instr), decodeWord w = .ok i →
    i.csr = csrField w ∧
    (csrField w = pmpcfg10Address ↔ csrField w = 0b001110101010#12) ∧
    (i.csr = pmpcfg10Address ↔ w &&& 0xfff0007f#32 = 0x3aa00073#32) ∧
    ∀ s : State,
      (csrField w = 0x3aa#12 → MayAccess s → ∃ t, exec i s = .next t ∧ AccessFrame i.rd s t) ∧
      (csrField w ≠ 0x3aa#12 → RegisterUntouched i s)

/-- Words of the examples of R65 and of 95_test_vectors.md section 5 decode to the instructions they stand for. -/
def Obligations.ExampleWordsDecode : Prop :=
  decodeWord 0x3aa29373#32 = .ok (.csrrw 6 0x3aa#12 5) ∧
  decodeWord 0x3aa322f3#32 = .ok (.csrrs 5 0x3aa#12 6) ∧
  decodeWord 0x3aa635f3#32 = .ok (.csrrc 11 0x3aa#12 12) ∧
  decodeWord 0x3aafd073#32 = .ok (.csrrwi 0 0x3aa#12 0x1f#5) ∧
  decodeWord 0x3aa266f3#32 = .ok (.csrrsi 13 0x3aa#12 4#5) ∧
  decodeWord 0x3aa1f4f3#32 = .ok (.csrrci 9 0x3aa#12 3#5)

/-- Words under another major opcode, and words of the SYSTEM opcode with `funct3` 0 or 4, are no CSR access; all other
words decode (30_encoding.md sections 1 and 3). -/
def Obligations.DecodesExactlyTheSixForms : Prop :=
  ∀ w : BitVec 32,
    (opcodeField w ≠ 0x73#7 → decodeWord w = .error .otherOpcode) ∧
    (opcodeField w = 0x73#7 ∧ (funct3Field w = 0#3 ∨ funct3Field w = 4#3) → decodeWord w = .error .notCsrAccess) ∧
    (opcodeField w = 0x73#7 ∧ funct3Field w ≠ 0#3 ∧ funct3Field w ≠ 4#3 → ∃ i, decodeWord w = .ok i)

/-- The encodings of the pseudo-instructions for `pmpcfg10` (30_encoding.md section 6, the table). -/
def Obligations.PseudoInstructionEncodings : Prop :=
  ∀ (r : Nat) (u : BitVec 5), RegNumber r →
    encode (.csrrs r 0x3aa#12 0) = 0x3aa02073#32 ||| (BitVec.ofNat 32 r <<< 7) ∧
    encode (.csrrw 0 0x3aa#12 r) = 0x3aa01073#32 ||| (BitVec.ofNat 32 r <<< 15) ∧
    encode (.csrrs 0 0x3aa#12 r) = 0x3aa02073#32 ||| (BitVec.ofNat 32 r <<< 15) ∧
    encode (.csrrc 0 0x3aa#12 r) = 0x3aa03073#32 ||| (BitVec.ofNat 32 r <<< 15) ∧
    encode (.csrrwi 0 0x3aa#12 u) = 0x3aa05073#32 ||| (u.setWidth 32 <<< 15) ∧
    encode (.csrrsi 0 0x3aa#12 u) = 0x3aa06073#32 ||| (u.setWidth 32 <<< 15) ∧
    encode (.csrrci 0 0x3aa#12 u) = 0x3aa07073#32 ||| (u.setWidth 32 <<< 15)

/-! ### The register as a view of the cells -/

/-- R25 with R14, R15 and R16: bit `p` of field `k`, at position `8k + p` of the register, is bit `p` of its cell, for
every field of the register under `mxl`; and the register has no other bit: its length is 32 or 64. -/
def Obligations.RegisterBitsAreCellBits : Prop :=
  Mxl.zero.len = 32 ∧ Mxl.one.len = 64 ∧
  (∀ (m : Mxl) (cells : Cells) (k : Field) (p : Nat), InView m k → p < 8 →
    8 * k.val + p < m.len ∧ (csrRead m cells).getLsbD (8 * k.val + p) = cells[k].getLsbD p) ∧
  (∀ (m : Mxl) (j : Nat), j < m.len → ∃ (k : Field) (p : Nat), InView m k ∧ p < 8 ∧ j = 8 * k.val + p)

/-- R72: a write updates every field of the register from its own old value and its own slice, and leaves the cells
outside the register unchanged. -/
def Obligations.WriteUpdatesEachFieldAlone : Prop :=
  ∀ (p : Params) (m : Mxl) (v : BitVec m.len) (cells : Cells) (k : Field),
    (InView m k → (csrWrite p m v cells)[k] =
      writeField p k.entry cells[k] (v.extractLsb' (8 * k.val) 8)) ∧
    (¬ InView m k → (csrWrite p m v cells)[k] = cells[k])

/-- R71 against the source's text: on an implemented entry the write function is the source's verbatim function with
bits 6:5 of its result replaced by the old ones (90_conflicts.md C1); on an unimplemented entry it is 0 (C2). -/
def Obligations.WriteFieldIsSourceFunctionButReservedBits : Prop :=
  ∀ (p : Params) (n : Nat) (old new : Byte),
    writeField p n old new =
      if p.numPmpEntries ≤ n then 0x00#8
      else (sourceWrite p.pmpGranularity old new &&& 0x9f#8) ||| (old &&& 0x60#8)

/-- R83 (a) to (e): self-write is a no-op, for one field and for the whole register; idempotence; closure; the lock is
monotone; and the result for a field depends on no other field and not on `mxl`. -/
def Obligations.WriteProperties : Prop :=
  (∀ (p : Params) (n : Nat) (old : Byte), (¬ Implemented p n → old = 0x00#8) → writeField p n old old = old) ∧
  (∀ (p : Params) (m : Mxl) (cells : Cells), CellsLegal p cells → csrWrite p m (csrRead m cells) cells = cells) ∧
  (∀ (p : Params) (n : Nat) (old new : Byte),
    writeField p n (writeField p n old new) new = writeField p n old new) ∧
  (∀ (p : Params) (n : Nat) (old new : Byte), ¬ Implemented p n → writeField p n old new = 0x00#8) ∧
  (∀ (p : Params) (n : Nat) (old new : Byte), Implemented p n → Legal p old → Legal p (writeField p n old new)) ∧
  (∀ (p : Params) (n : Nat) (old new : Byte), Implemented p n → bitL old = true → writeField p n old new = old) ∧
  (∀ (p : Params) (m m' : Mxl) (v : BitVec m.len) (v' : BitVec m'.len) (cells cells' : Cells) (k : Field),
    InView m k → InView m' k → cells[k] = cells'[k] → slice v k = slice v' k →
      (csrWrite p m v cells)[k] = (csrWrite p m' v' cells')[k])

/-- R41, last part: performing the same write twice in a row leaves the same cells as performing it once
(20_memory.md section 1). -/
def Obligations.RegisterWriteIsIdempotent : Prop :=
  ∀ (p : Params) (m : Mxl) (v : BitVec m.len) (cells : Cells),
    csrWrite p m v (csrWrite p m v cells) = csrWrite p m v cells

/-- R74, with the corner cases of the lock (40_csr_access.md section 1): a locked field keeps its byte whatever is
presented; a byte that is reserved or has a forbidden NA4 is rejected whole, its lock bit included; any other byte
is accepted whole, lock and configuration in one write, but for the reserved bits. -/
def Obligations.LockAndRejectionCornerCases : Prop :=
  ∀ (p : Params) (n : Nat) (old new : Byte), Implemented p n →
    (bitL old = true → writeField p n old new = old) ∧
    (ReservedPermission new ∨ Na4TooFine p new → writeField p n old new = old) ∧
    (bitL old = false → ¬ ReservedPermission new → ¬ Na4TooFine p new →
      bitL (writeField p n old new) = bitL new ∧
      (writeField p n old new).extractLsb' 0 5 = new.extractLsb' 0 5 ∧
      reservedBits (writeField p n old new) = reservedBits old)

/-- R22, the count: 48 bytes are legal when `PMP_GRANULARITY < 2`, 36 when it is 2 or more. -/
def Obligations.LegalByteCount : Prop :=
  ∀ p : Params,
    ((List.range 256).filter fun n => decide (Legal p (BitVec.ofNat 8 n))).length =
      if p.pmpGranularity < 2 then 48 else 36

/-- What software reads back after a write of an unlocked field with a legal byte: that byte where the entry is
implemented, 0 where it is not; this is how it finds out how many entries there are (70_reset_and_hazards.md section
2). -/
def Obligations.ReadBackShowsImplementedEntries : Prop :=
  ∀ (p : Params) (m : Mxl) (v : BitVec m.len) (cells : Cells) (k : Field),
    CellsLegal p cells → InView m k → bitL cells[k] = false → Legal p (slice v k) →
      slice (csrRead m (csrWrite p m v cells)) k = if Implemented p k.entry then slice v k else 0x00#8

/-- The recipe of 40_csr_access.md section 6: writing the old value with one field replaced presents the new byte to that
field and changes no other cell. -/
def Obligations.ReplacingOneFieldLeavesTheOthers : Prop :=
  ∀ (p : Params) (m : Mxl) (cells : Cells) (k : Field) (c : Byte), CellsLegal p cells → InView m k →
    let old := csrRead m cells
    let v := (old &&& ~~~ ((0xff#8).setWidth m.len <<< (8 * k.val))) ||| (c.setWidth m.len <<< (8 * k.val))
    (csrWrite p m v cells)[k] = writeField p k.entry cells[k] c ∧
    ∀ j : Field, j ≠ k → (csrWrite p m v cells)[j] = cells[j]

/-- R19: the mode each value of A names; which values are legal at each granularity, for a byte whose other bits are legal;
and a write whose A is 2 where NA4 is not valid is ignored for the whole field. -/
def Obligations.MatchingModeOfEachValueOfA : Prop :=
  ∀ (p : Params) (n : Nat) (old b : Byte),
    (b.extractLsb' 3 2 = 0#2 → matchMode b = .off) ∧ (b.extractLsb' 3 2 = 1#2 → matchMode b = .tor) ∧
    (b.extractLsb' 3 2 = 2#2 → matchMode b = .na4) ∧ (b.extractLsb' 3 2 = 3#2 → matchMode b = .napot) ∧
    (¬ ReservedPermission b → reservedBits b = 0#2 →
      (Legal p b ↔ p.pmpGranularity < 2 ∨ b.extractLsb' 3 2 ≠ 2#2)) ∧
    (2 ≤ p.pmpGranularity → b.extractLsb' 3 2 = 2#2 → (¬ Implemented p n → old = 0x00#8) → writeField p n old b = old)

/-- The reserved bits of every field of the register read 0 (10_state.md, the rule on bits 6:5, and 40_csr_access.md,
the consequences of the read rule), and an unimplemented field reads 0. -/
def Obligations.ReservedAndUnimplementedReadZero : Prop :=
  ∀ (p : Params) (m : Mxl) (cells : Cells) (k : Field), CellsLegal p cells → InView m k →
    reservedBits (slice (csrRead m cells) k) = 0#2 ∧
    (¬ Implemented p k.entry → slice (csrRead m cells) k = 0x00#8)

/-! ### The six instructions: encoding, access check, result and frame -/

/-- R75, `csrrw`. -/
def Obligations.CsrrwSwapsRegisterAndCsr : Prop :=
  ∀ (s : State) (rd rs1 : Nat), WellFormed (.csrrw rd 0x3aa#12 rs1) →
    let i := Instr.csrrw rd 0x3aa#12 rs1
    let word := 0x3aa01073#32 ||| (BitVec.ofNat 32 rs1 <<< 15) ||| (BitVec.ofNat 32 rd <<< 7)
    encode i = word ∧
    (¬ MayAccess s → exec i s = .fault (.exception (.illegalInstruction word))) ∧
    (MayAccess s → ∃ t, exec i s = .next t ∧ AccessFrame rd s t ∧
      ∀ k : Field, t.cfg[k] =
        if InView s.mxl k then writeField s.params k.entry s.cfg[k] (slice (readX s.mxl rs1 s) k) else s.cfg[k])

/-- R76, `csrrs`. -/
def Obligations.CsrrsReadsAndSetsBits : Prop :=
  ∀ (s : State) (rd rs1 : Nat), WellFormed (.csrrs rd 0x3aa#12 rs1) →
    let i := Instr.csrrs rd 0x3aa#12 rs1
    let word := 0x3aa02073#32 ||| (BitVec.ofNat 32 rs1 <<< 15) ||| (BitVec.ofNat 32 rd <<< 7)
    encode i = word ∧
    (¬ MayAccess s → exec i s = .fault (.exception (.illegalInstruction word))) ∧
    (MayAccess s → ∃ t, exec i s = .next t ∧ AccessFrame rd s t ∧
      ∀ k : Field, t.cfg[k] =
        if rs1 ≠ 0 ∧ InView s.mxl k then
          writeField s.params k.entry s.cfg[k] (s.cfg[k] ||| slice (readX s.mxl rs1 s) k)
        else s.cfg[k])

/-- R77, `csrrc`. -/
def Obligations.CsrrcReadsAndClearsBits : Prop :=
  ∀ (s : State) (rd rs1 : Nat), WellFormed (.csrrc rd 0x3aa#12 rs1) →
    let i := Instr.csrrc rd 0x3aa#12 rs1
    let word := 0x3aa03073#32 ||| (BitVec.ofNat 32 rs1 <<< 15) ||| (BitVec.ofNat 32 rd <<< 7)
    encode i = word ∧
    (¬ MayAccess s → exec i s = .fault (.exception (.illegalInstruction word))) ∧
    (MayAccess s → ∃ t, exec i s = .next t ∧ AccessFrame rd s t ∧
      ∀ k : Field, t.cfg[k] =
        if rs1 ≠ 0 ∧ InView s.mxl k then
          writeField s.params k.entry s.cfg[k] (s.cfg[k] &&& ~~~ slice (readX s.mxl rs1 s) k)
        else s.cfg[k])

/-- R78, `csrrwi`: the immediate is presented to field 40 and zero to every other field of the register. -/
def Obligations.CsrrwiWritesImmediate : Prop :=
  ∀ (s : State) (rd : Nat) (uimm : BitVec 5), WellFormed (.csrrwi rd 0x3aa#12 uimm) →
    let i := Instr.csrrwi rd 0x3aa#12 uimm
    let word := 0x3aa05073#32 ||| (uimm.setWidth 32 <<< 15) ||| (BitVec.ofNat 32 rd <<< 7)
    encode i = word ∧
    (¬ MayAccess s → exec i s = .fault (.exception (.illegalInstruction word))) ∧
    (MayAccess s → ∃ t, exec i s = .next t ∧ AccessFrame rd s t ∧
      ∀ k : Field, t.cfg[k] =
        if InView s.mxl k then
          writeField s.params k.entry s.cfg[k] (if k = 0 then uimm.setWidth 8 else 0x00#8)
        else s.cfg[k])

/-- R79, `csrrsi`: the old value OR the immediate is presented to field 40 and its own value to every other field of the register; on
legal cells, as they always are (R27), only field 40 can change. -/
def Obligations.CsrrsiSetsImmediateBits : Prop :=
  ∀ (s : State) (rd : Nat) (uimm : BitVec 5), WellFormed (.csrrsi rd 0x3aa#12 uimm) →
    let i := Instr.csrrsi rd 0x3aa#12 uimm
    let word := 0x3aa06073#32 ||| (uimm.setWidth 32 <<< 15) ||| (BitVec.ofNat 32 rd <<< 7)
    encode i = word ∧
    (¬ MayAccess s → exec i s = .fault (.exception (.illegalInstruction word))) ∧
    (MayAccess s → ∃ t, exec i s = .next t ∧ AccessFrame rd s t ∧
      (∀ k : Field, t.cfg[k] =
        if uimm ≠ 0 ∧ InView s.mxl k then
          writeField s.params k.entry s.cfg[k] (if k = 0 then s.cfg[k] ||| uimm.setWidth 8 else s.cfg[k])
        else s.cfg[k]) ∧
      (CellsLegal s.params s.cfg → ∀ k : Field, k ≠ 0 → t.cfg[k] = s.cfg[k]))

/-- R80, `csrrci`: the old value AND NOT the immediate is presented to field 40 and its own value to every other field of the register; on
legal cells, as they always are (R27), only field 40 can change. -/
def Obligations.CsrrciClearsImmediateBits : Prop :=
  ∀ (s : State) (rd : Nat) (uimm : BitVec 5), WellFormed (.csrrci rd 0x3aa#12 uimm) →
    let i := Instr.csrrci rd 0x3aa#12 uimm
    let word := 0x3aa07073#32 ||| (uimm.setWidth 32 <<< 15) ||| (BitVec.ofNat 32 rd <<< 7)
    encode i = word ∧
    (¬ MayAccess s → exec i s = .fault (.exception (.illegalInstruction word))) ∧
    (MayAccess s → ∃ t, exec i s = .next t ∧ AccessFrame rd s t ∧
      (∀ k : Field, t.cfg[k] =
        if uimm ≠ 0 ∧ InView s.mxl k then
          writeField s.params k.entry s.cfg[k] (if k = 0 then s.cfg[k] &&& ~~~ (uimm.setWidth 8) else s.cfg[k])
        else s.cfg[k]) ∧
      (CellsLegal s.params s.cfg → ∀ k : Field, k ≠ 0 → t.cfg[k] = s.cfg[k]))

/-- The last column of 40_csr_access.md section 4: on legal cells the suppressed write of the set and clear forms would
change nothing, so a set or clear form with a zero operand VALUE leaves the cells as they are even where it writes. -/
def Obligations.ZeroOperandSetAndClearChangeNothing : Prop :=
  ∀ (s t : State) (rd : Nat) (rs1 : Nat), CellsLegal s.params s.cfg → readX s.mxl rs1 s = 0 →
    (exec (.csrrs rd 0x3aa#12 rs1) s = .next t ∨ exec (.csrrc rd 0x3aa#12 rs1) s = .next t) → t.cfg = s.cfg

/-- R81: outside M-mode or without `Smpmp`, every one of the six instructions raises `IllegalInstruction` with its word,
whatever its operands; in M-mode with `Smpmp` every one completes. -/
def Obligations.AccessCheckDecidesEveryForm : Prop :=
  ∀ (i : Instr) (s : State), i.csr = 0x3aa#12 →
    (¬ MayAccess s → exec i s = .fault (.exception (.illegalInstruction (encode i)))) ∧
    (MayAccess s → ∃ t, exec i s = .next t)

/-- R13: with `Smpmp` implemented, the register can be read and written when the mode is M, and in no other mode: an
instruction on it completes exactly then. -/
def Obligations.RegisterReachedOnlyInMachineMode : Prop :=
  ∀ (i : Instr) (s : State), i.csr = 0x3aa#12 → s.params.smpmp = true →
    ((∃ t, exec i s = .next t) ↔ s.priv = .machine)

/-- A read returns the cells as the latest earlier write left them (20_memory.md section 5): the `csrr` after a `csrrw`
reads in every field of the register what that write stored. -/
def Obligations.NextReadReturnsWhatTheWriteStored : Prop :=
  ∀ (s t u : State) (rd rs1 r : Nat), exec (.csrrw rd 0x3aa#12 rs1) s = .next t → r ≠ 0 → r < 32 →
    exec (.csrrs r 0x3aa#12 0) t = .next u →
    ∀ k : Field, InView s.mxl k →
      slice (readX s.mxl r u) k = writeField s.params k.entry s.cfg[k] (slice (readX s.mxl rs1 s) k)

/-- Assumption 14, the model's choice from the address conventions of 30_encoding.md section 4: an access to another CSR
stops; it is illegal where the address alone says so, and otherwise refused by name as outside the spec. -/
def Obligations.OtherCsrAccessStops : Prop :=
  ∀ (i : Instr) (s : State), i.csr ≠ 0x3aa#12 →
    exec i s =
      if (i.csr.extractLsb' 8 2 = 3#2 ∧ s.priv = .other) ∨ (i.csr.extractLsb' 10 2 = 3#2 ∧ i.writes = true) then
        .fault (.exception (.illegalInstruction (encode i)))
      else .refused (.otherCsr i.csr)

/-- R64 for this register: 0x3aa is a read-write address whose lowest mode is M. -/
def Obligations.RegisterAddressRights : Prop :=
  pmpcfg10Address.extractLsb' 10 2 = 0b00#2 ∧ pmpcfg10Address.extractLsb' 8 2 = 0b11#2 ∧
  csrReadOnly pmpcfg10Address = false ∧ csrMachineOnly pmpcfg10Address = true

/-- Assumption 8, the model's choice: after a 32-bit access whose result has bit 31 clear, `x[rd]` seen at 64 bits is the
result zero-extended, as program P6 of 95_test_vectors.md shows; where bit 31 is set its upper half is the free value
of the tick. -/
def Obligations.NarrowResultSeenWide : Prop :=
  ∀ (s t : State) (i : Instr), s.mxl = .zero → i.rd ≠ 0 → i.rd < 32 → exec i s = .next t →
    readX .one i.rd t =
      (if (csrRead .zero s.cfg).getLsbD 31 = true then Config.freeUpperX s.tick else 0#32) ++ csrRead .zero s.cfg

/-! ### What changes a cell -/

/-- Every step keeps the invariant: legal cells (10_state.md section 6), memory in canonical form, an aligned `pc`
(30_encoding.md section 1). Where a reset follows the instruction, that `pc` is then aligned and that memory is kept is the
model's choice: `pc` takes the reset vector 0 (assumptions 6 and 16). So is that `pc` and memory are kept over a change of
`mxl` (assumption 10) or of mode (assumption 22), and that one event at most follows a step (assumption 3). -/
def Obligations.StepKeepsMachineWellFormed : Prop :=
  ∀ s t : State, Inv s → step s = .next t → Inv t

/-- The state after reset meets the invariant, its cells are the reset values of its draws, and it is the one the core
starts from (10_state.md section 7). That its mode is M is presumed (assumption 7), and that its `pc` is aligned is the
model's choice, the reset vector 0 (assumption 6). -/
def Obligations.ResetStateIsWellFormed : Prop :=
  Inv State.reset ∧ State.reset.priv = .machine ∧ Sys2Proof.core.reset = State.reset ∧
  ∀ k : Field, State.reset.cfg[k] = resetByte Config.params k.entry (Config.resetDraw 0 k.entry)

/-- R26: after a reset an unimplemented entry holds 0 and an implemented one a legal byte, for all draws; and every such
set of eight bytes is the outcome of some draws, so no more than legality may be relied on. -/
def Obligations.ResetGivesExactlyTheLegalCells : Prop :=
  ∀ (p : Params) (cells : Cells),
    (∃ draw : Nat → Byte, resetCells p draw = cells) ↔
      ∀ k : Field, if p.numPmpEntries > k.entry then Legal p cells[k] else cells[k] = 0x00#8

/-- A locked cell is unchanged by every run of any length in which no reset lies ahead, from every state that meets the
invariant (10_state.md, the rule on L; 70_reset_and_hazards.md section 1). That the environment's events, a reset among
them, are a list read one after each instruction is the model's choice (assumption 3). -/
def Obligations.LockedCellSurvivesEveryRunWithoutReset : Prop :=
  ∀ (n : Nat) (s t : State) (k : Field), Inv s → NoResetAhead s → Locked s k →
    Sys2Proof.core.run n s = .next t → t.cfg[k] = s.cfg[k] ∧ Locked t k

/-- A cell changes only by a software write or a reset (10_state.md section 6, the rule on what changes a cell): a step
that changes the cells and is followed by no reset ran a writing form of one of the six instructions on this register,
in M-mode. That a reset can only follow an instruction is the model's choice (assumptions 3 and 16). -/
def Obligations.OnlyWritesOrResetChangeCells : Prop :=
  ∀ s t : State, step s = .next t → nextEvent s ≠ .reset → t.cfg ≠ s.cfg →
    ∃ (bytes : List Byte) (i : Instr), fetchBytes s = .next bytes ∧ decodeBytes bytes = .ok i ∧
      i.csr = 0x3aa#12 ∧ i.writes = true ∧ MayAccess s

/-- At 32 bits the cells of entries 44 to 47 are neither shown nor changed by any instruction: two states that differ in
them only give next states that differ in them only (10_state.md section 3; 40_csr_access.md section 1). -/
def Obligations.HiddenCellsNeitherShownNorChanged : Prop :=
  ∀ (i : Instr) (s s' t : State), SameInView s s' → exec i s = .next t →
    ∃ t', exec i s' = .next t' ∧ SameInView t t' ∧
      ∀ k : Field, ¬ InView s.mxl k → t.cfg[k] = s.cfg[k] ∧ t'.cfg[k] = s'.cfg[k]

/-! ### Memory accesses under the configuration bytes -/

/-- R43: an instruction fetch whose entry's checks apply and whose X is clear raises the Access Fault of the instruction
kind, and the step executes nothing. -/
def Obligations.FetchWithoutExecutePermissionFaults : Prop :=
  ∀ (s : State) (k : Field), s.params.smpmp = true → fetchAddr s % 4 = 0 →
    selectedField s (fetchAccess s) = some k → (s.priv = .other ∨ bitL s.cfg[k] = true) →
    s.cfg[k].getLsbD 2 = false → step s = .fault (.exception .insnAccessFault)

/-- R43 to R45 and R90: for each kind of access, what the entry that counts raises, and that the access is then not
performed, whatever it would have done (20_memory.md section 2, the table; 60_exceptions.md section 1). -/
def Obligations.AccessFaultPerKindOfAccess : Prop :=
  ∀ (s : State) (a : Access) (k : Field) (access : Host.Outcome State Fault Refusal),
    s.params.smpmp = true → selectedField s a = some k → (a.priv ≠ .machine ∨ s.cfg[k].getLsbD 7 = true) →
    (a.kind = .fetch → s.cfg[k].getLsbD 2 = false → guardAccess s a access = .fault (.exception .insnAccessFault)) ∧
    (a.kind = .load → s.cfg[k].getLsbD 0 = false → guardAccess s a access = .fault (.exception .loadAccessFault)) ∧
    (a.kind = .store ∨ a.kind = .amo → s.cfg[k].getLsbD 1 = false →
      guardAccess s a access = .fault (.exception .storeAmoAccessFault))

/-- The other direction of the lock's second sentence: with L clear an entry causes no Access Fault for an access made in
M-mode, and no entry causes one for a kind whose bit is set (20_memory.md section 2). -/
def Obligations.NoAccessFaultWithoutCause : Prop :=
  ∀ (s : State) (a : Access) (e : Exception), pmpVerdict s a = some e →
    ∃ k : Field, selectedField s a = some k ∧ e = accessFault a.kind ∧
      (a.priv = .machine → bitL s.cfg[k] = true) ∧ permissionBit s.cfg[k] a.kind = false

/-- R46, with its consequence for unimplemented entries: an entry whose A is 0 is never the one whose verdict counts, so
on legal cells no unimplemented entry is; and the entry that counts matches the access under the mode its A names: TOR for
1, NA4 for 2, NAPOT for 3. That only an entry that matches can be picked is assumption 17. -/
def Obligations.OffEntryMatchesNothing : Prop :=
  ∀ (s : State) (a : Access) (k : Field), selectedField s a = some k →
    s.cfg[k].extractLsb' 3 2 ≠ 0#2 ∧ pmpMatches s.params k.entry (matchMode s.cfg[k]) a = true ∧
    (s.cfg[k].extractLsb' 3 2 = 1#2 → pmpMatches s.params k.entry .tor a = true) ∧
    (s.cfg[k].extractLsb' 3 2 = 2#2 → pmpMatches s.params k.entry .na4 a = true) ∧
    (s.cfg[k].extractLsb' 3 2 = 3#2 → pmpMatches s.params k.entry .napot a = true) ∧
    (CellsLegal s.params s.cfg → Implemented s.params k.entry)

/-- The derived sentence on AMOs (20_memory.md section 2): on legal cells an AMO that passes the W test would pass an R
test as well. -/
def Obligations.AmoPassingWriteTestPassesReadTest : Prop :=
  ∀ (s : State) (k : Field) (a : Access), CellsLegal s.params s.cfg → a.kind = .amo →
    entryVerdict s.cfg[k] a = none → entryVerdict s.cfg[k] { a with kind := .load } = none

/-- R51: a memory access after an instruction on the register is judged with the byte that instruction left, with nothing
in between: after any of the six forms that writes, the byte the write stored; after a form that does not, and for a field
outside the register, the old byte. -/
def Obligations.WriteGovernsTheNextAccess : Prop :=
  ∀ (i : Instr) (s t : State) (k : Field) (a : Access), i.csr = 0x3aa#12 → exec i s = .next t →
    selectedField t a = some k →
    let value := presented i s.mxl (fun n => readX s.mxl n s) (csrRead s.mxl s.cfg)
    pmpVerdict t a =
      entryVerdict
        (if i.writes = true ∧ InView s.mxl k then writeField s.params k.entry s.cfg[k] (slice value k) else s.cfg[k]) a

/-! ### The step, the environment, exceptions -/

/-- A step runs the decoded instruction, and passes on its fault or refusal (30_encoding.md section 1; 60_exceptions.md
section 4). That a completed instruction is followed by the environment's next event, at most one, is the model's choice
(assumption 3). -/
def Obligations.StepRunsTheDecodedInstruction : Prop :=
  ∀ (s : State) (bytes : List Byte) (i : Instr), fetchBytes s = .next bytes → decodeBytes bytes = .ok i →
    (∀ t, exec i s = .next t → step s = .next (endStep t)) ∧
    (∀ f, exec i s = .fault f → step s = .fault f) ∧
    (∀ r, exec i s = .refused r → step s = .refused r)

/-- The interface of the host: at an aligned `pc` where the register raises nothing for the fetch, the next step of
`withFetchWord` fetches and runs exactly the instruction whose word was placed, and only the four bytes at `pc` have
changed. That the fetch is then performed is the model's choice (assumption 18), since the spec states no access's success
(20_memory.md section 2); so are the load from outside the machine (assumption 21) and the environment's event after the
instruction (assumption 3). -/
def Obligations.PlacedWordIsRunNext : Prop :=
  ∀ (s : State) (i : Instr), WellFormed i → fetchAddr s % 4 = 0 → pmpVerdict s (fetchAccess s) = none →
    let u := s.withFetchWord 32 (encode i).toNat
    fetchBytes u = .next (encodeBytes i) ∧ decodeTableWord 32 (encode i).toNat = some i ∧
    u = { s with mem := u.mem } ∧
    (∀ a : Nat, a < fetchAddr s ∨ fetchAddr s + 4 ≤ a → readByte u.mem a = readByte s.mem a) ∧
    (∀ t, exec i u = .next t → step u = .next (endStep t)) ∧
    (∀ f, exec i u = .fault f → step u = .fault f) ∧
    (∀ r, exec i u = .refused r → step u = .refused r)

/-- What the environment can do between two instructions: a change of `mxl` changes no cell (10_state.md section 6), nor
does a change of mode (60_exceptions.md section 4); a reset redraws every cell (70_reset_and_hazards.md section 1). The
model's choices among these: a change of `mxl` keeps general registers and `pc` and all else (assumption 10), and so does a
change of mode (assumption 22); a reset keeps `mxl`, on which the spec is silent (assumption 16), and leaves the mode M,
which is presumed (assumption 7); one event at most follows a step (assumption 3). -/
def Obligations.EnvironmentEventEffects : Prop :=
  ∀ s : State,
    (nextEvent s = .hold → endStep s = { s with env := s.env.tail, tick := s.tick + 1 }) ∧
    (∀ m, nextEvent s = .setMxl m → endStep s = { s with mxl := m, env := s.env.tail, tick := s.tick + 1 }) ∧
    (∀ q, nextEvent s = .setPriv q → endStep s = { s with priv := q, env := s.env.tail, tick := s.tick + 1 }) ∧
    (nextEvent s = .reset →
      (endStep s).cfg = resetCells s.params (Config.resetDraw s.tick) ∧ (endStep s).priv = .machine ∧
      (endStep s).params = s.params ∧ (endStep s).mxl = s.mxl)

/-- A step whose bytes are none of the six instructions, or whose `pc` is not a multiple of 4, is refused by name: the
model's choice where the spec is silent (assumption 13). -/
def Obligations.OtherWordsAndMisalignedPcRefused : Prop :=
  ∀ s : State,
    (fetchAddr s % 4 ≠ 0 → step s = .refused (.misalignedPc (fetchAddr s))) ∧
    (∀ b0 b1 b2 b3 why, fetchBytes s = .next [b0, b1, b2, b3] →
      decodeWord (b3 ++ b2 ++ b1 ++ b0 : BitVec 32) = .error why →
      step s = .refused (.notDecoded why (b3 ++ b2 ++ b1 ++ b0 : BitVec 32)))

/-- R91: the default cause codes. -/
def Obligations.DefaultCauseCodes : Prop :=
  ∀ w : BitVec 32,
    excCode State.reset.params.codes .insnAccessFault = 1 ∧
    excCode State.reset.params.codes (.illegalInstruction w) = 2 ∧
    excCode State.reset.params.codes .loadAccessFault = 5 ∧
    excCode State.reset.params.codes .storeAmoAccessFault = 7

/-- Parameters are fixed for the life of the machine: no step changes them (00_scope.md section 4). -/
def Obligations.ParametersNeverChange : Prop :=
  ∀ (n : Nat) (s t : State), Sys2Proof.core.run n s = .next t → t.params = s.params
end

