-- ==== Sys2Proof/Laws/Cells.lean ====
section
/-! SUPPORT. The laws of the configuration bytes and of the register as a view of them. -/

namespace Sys2Proof.Machine

/-- The spec of `CsrWrite`, cell by cell. -/
theorem csrWrite_getElem (p : Params) (m : Mxl) (v : BitVec m.len) (cells : Cells) (k : Field) :
    (csrWrite p m v cells)[k] =
      if InView m k then writeField p k.entry cells[k] (slice v k) else cells[k] := by
  simp [csrWrite]

/-- The same, in the form simp gives an index that is a field. -/
@[simp] theorem csrWrite_getElem_val (p : Params) (m : Mxl) (v : BitVec m.len) (cells : Cells) (k : Field) :
    (csrWrite p m v cells)[k.val] =
      if InView m k then writeField p k.entry cells[k] (slice v k) else cells[k] :=
  csrWrite_getElem p m v cells k

/-- The spec of a reset of the cells, cell by cell. -/
theorem resetCells_getElem (p : Params) (draw : Nat → Byte) (k : Field) :
    (resetCells p draw)[k] = resetByte p k.entry (draw k.entry) := by
  simp [resetCells]

@[simp] theorem resetCells_getElem_val (p : Params) (draw : Nat → Byte) (k : Field) :
    (resetCells p draw)[k.val] = resetByte p k.entry (draw k.entry) :=
  resetCells_getElem p draw k

/-- Eight cells are equal when they are equal field by field. -/
theorem cells_ext {left right : Cells} (h : ∀ k : Field, left[k] = right[k]) : left = right :=
  Vector.ext fun i hi => h ⟨i, hi⟩

/-- A field of the register lies inside its length. -/
theorem inView_bound {m : Mxl} {k : Field} (h : InView m k) : 8 * k.val + 8 ≤ m.len := by
  have := k.isLt
  cases m
  · rcases h with h | h
    · cases h
    · show _ ≤ 32; omega
  · show _ ≤ 64; omega

/-- What is read at a field of the register is its cell. -/
theorem slice_csrRead {m : Mxl} {k : Field} (h : InView m k) (cells : Cells) :
    slice (csrRead m cells) k = cells[k] := by
  cases m
  · have hk : k.val < 4 := by rcases h with h | h; cases h; exact h
    obtain ⟨k, hk8⟩ := k
    have : k = 0 ∨ k = 1 ∨ k = 2 ∨ k = 3 := by simp at hk; omega
    rcases this with rfl | rfl | rfl | rfl <;>
      · ext i hi
        simp [slice, csrRead]
        grind
  · obtain ⟨k, hk8⟩ := k
    have : k = 0 ∨ k = 1 ∨ k = 2 ∨ k = 3 ∨ k = 4 ∨ k = 5 ∨ k = 6 ∨ k = 7 := by omega
    rcases this with rfl | rfl | rfl | rfl | rfl | rfl | rfl | rfl <;>
      · ext i hi
        simp [slice, csrRead]
        grind

theorem slice_or {w : Nat} (u v : BitVec w) (k : Field) : slice (u ||| v) k = slice u k ||| slice v k := by
  ext i hi; simp [slice]

theorem slice_and {w : Nat} (u v : BitVec w) (k : Field) : slice (u &&& v) k = slice u k &&& slice v k := by
  ext i hi; simp [slice]

/-- The slice of a complement, at a field that lies inside the word. -/
theorem slice_not {w : Nat} (u : BitVec w) (k : Field) (h : 8 * k.val + 8 ≤ w) : slice (~~~ u) k = ~~~ slice u k := by
  ext i hi
  have : 8 * k.val + i < w := by omega
  simp [slice, this]

/-- The slices of a zero-extended immediate: the immediate at field 40, zero elsewhere. -/
theorem slice_immediate (m : Mxl) (u : BitVec 5) (k : Field) :
    slice (u.setWidth m.len) k = if k = 0 then u.setWidth 8 else 0x00#8 := by
  have hm : 32 ≤ m.len := by cases m <;> decide
  ext i hi
  by_cases hk : k = 0
  · subst hk
    simp [slice]
    omega
  · have : 0 < k.val := Nat.pos_of_ne_zero fun h => hk (Fin.ext h)
    simp [slice, hk]
    intro _
    exact BitVec.getLsbD_of_ge _ _ (by omega)

/-- The spec of `WriteField`: 0 for an unimplemented entry, the old byte, or the accepted byte. -/
theorem writeField_cases (p : Params) (n : Nat) (old new : Byte) :
    (¬ Implemented p n ∧ writeField p n old new = 0x00#8) ∨
    (Implemented p n ∧ (bitL old = true ∨ ReservedPermission new ∨ Na4TooFine p new) ∧
      writeField p n old new = old) ∨
    (Implemented p n ∧ bitL old = false ∧ ¬ ReservedPermission new ∧ ¬ Na4TooFine p new ∧
      writeField p n old new = acceptedByte old new) := by
  unfold writeField
  split
  · exact .inl ⟨‹_›, rfl⟩
  · rename_i h1
    split
    · exact .inr (.inl ⟨not_not.mp h1, .inl ‹_›, rfl⟩)
    · rename_i h2
      split
      · exact .inr (.inl ⟨not_not.mp h1, .inr (.inl ‹_›), rfl⟩)
      · split
        · exact .inr (.inl ⟨not_not.mp h1, .inr (.inr ‹_›), rfl⟩)
        · exact .inr (.inr ⟨not_not.mp h1, by simpa using h2, ‹_›, ‹_›, rfl⟩)

/-- Bit by bit: bits 5 and 6 of the accepted byte are the old ones, the others the presented ones. -/
theorem getLsbD_acceptedByte (old new : Byte) (i : Nat) :
    (acceptedByte old new).getLsbD i = if i = 5 ∨ i = 6 then old.getLsbD i else new.getLsbD i := by
  change BitVec.getLsbD (w := 1 + 2 + 5) (new.extractLsb' 7 1 ++ reservedBits old ++ new.extractLsb' 0 5) i = _
  rw [BitVec.getLsbD_append, BitVec.getLsbD_append]
  simp only [reservedBits, BitVec.getLsbD_extractLsb']
  by_cases h : i < 8
  · interval_cases i <;> simp
  · have h5 : ¬ i < 5 := by omega
    have h2 : ¬ i - 5 < 2 := by omega
    have h1 : ¬ i - 5 - 2 < 1 := by omega
    have hn : ¬ (i = 5 ∨ i = 6) := by omega
    simp [h5, h2, h1, hn, BitVec.getLsbD_of_ge new i (by omega)]

@[simp] theorem bitL_acceptedByte (old new : Byte) : bitL (acceptedByte old new) = bitL new := by
  unfold bitL; rw [getLsbD_acceptedByte, if_neg (by omega)]

@[simp] theorem bitX_acceptedByte (old new : Byte) : bitX (acceptedByte old new) = bitX new := by
  unfold bitX; rw [getLsbD_acceptedByte, if_neg (by omega)]

@[simp] theorem bitW_acceptedByte (old new : Byte) : bitW (acceptedByte old new) = bitW new := by
  unfold bitW; rw [getLsbD_acceptedByte, if_neg (by omega)]

@[simp] theorem bitR_acceptedByte (old new : Byte) : bitR (acceptedByte old new) = bitR new := by
  unfold bitR; rw [getLsbD_acceptedByte, if_neg (by omega)]

@[simp] theorem modeBits_acceptedByte (old new : Byte) : modeBits (acceptedByte old new) = modeBits new := by
  ext i hi
  have h5 : 3 + i ≠ 5 := by omega
  have h6 : 3 + i ≠ 6 := by omega
  simp only [modeBits, BitVec.getElem_extractLsb', getLsbD_acceptedByte, h5, h6, or_self, if_false]

@[simp] theorem reservedBits_acceptedByte (old new : Byte) :
    reservedBits (acceptedByte old new) = reservedBits old := by
  ext i hi
  have h : 5 + i = 5 ∨ 5 + i = 6 := by omega
  simp only [reservedBits, BitVec.getElem_extractLsb', getLsbD_acceptedByte, h, if_true]

/-- The zero byte is legal whatever the parameters. -/
theorem legal_zero (p : Params) : Legal p 0x00#8 :=
  ⟨by decide, fun h => absurd h.2 (by decide), by decide⟩

end Sys2Proof.Machine
end

