-- ==== Sys2Proof/Laws/Encoding.lean ====
section
/-! SUPPORT. The laws of packing an instruction word (30_encoding.md R60). -/

namespace Sys2Proof

/-- A packed word bit by bit: each field at its place (30_encoding.md R60). -/
theorem getLsbD_packWord (csr : BitVec 12) (src : BitVec 5) (f : BitVec 3) (rd : BitVec 5) (i : Nat) :
    (packWord csr src f rd).getLsbD i =
      if i < 7 then opcodeSystem.getLsbD i
      else if i < 12 then rd.getLsbD (i - 7)
      else if i < 15 then f.getLsbD (i - 12)
      else if i < 20 then src.getLsbD (i - 15)
      else csr.getLsbD (i - 20) := by
  change BitVec.getLsbD (w := 12 + 5 + 3 + 5 + 7) (csr ++ src ++ f ++ rd ++ opcodeSystem) i = _
  simp only [BitVec.getLsbD_append]
  grind

/-- The fixed bits of a packed word are the major opcode and `funct3`, whatever the operands. -/
theorem packWord_and_mask (csr : BitVec 12) (src : BitVec 5) (f : BitVec 3) (rd : BitVec 5) :
    packWord csr src f rd &&& 0x0000707f#32 = (f.setWidth 32 <<< 12) ||| 0x73#32 := by
  apply BitVec.eq_of_getLsbD_eq
  intro i hi
  rw [BitVec.getLsbD_and, getLsbD_packWord]
  interval_cases i <;> simp [opcodeSystem]

end Sys2Proof
end

