-- ==== Sys2Proof/Laws/Memory.lean ====
section
/-! SUPPORT. The laws of instruction memory: reading after writing, and that every operation keeps the canonical form. -/

namespace Sys2Proof.Machine

theorem readByte_writeByte_same (mem : Memory) (a : Nat) (b : Byte) :
    readByte (writeByte mem a b) a = some b := by
  induction mem with
  | nil => simp [writeByte, readByte]
  | cons x rest ih =>
    obtain ⟨k, c⟩ := x
    unfold writeByte
    split
    · simp [readByte]
    · split
      · simp [readByte]
      · rename_i h; simp [readByte, ih, Ne.symm h]

theorem readByte_writeByte_other (mem : Memory) (a : Nat) (b : Byte) (x : Nat) (h : x ≠ a) :
    readByte (writeByte mem a b) x = readByte mem x := by
  induction mem with
  | nil => simp [writeByte, readByte, h.symm]
  | cons y rest ih =>
    obtain ⟨k, c⟩ := y
    unfold writeByte
    split
    · simp [readByte, h.symm]
    · split
      · rename_i e; subst e; simp [readByte, h.symm]
      · simp [readByte, ih]

theorem readByte_writeBytes_outside (bs : List Byte) (mem : Memory) (a x : Nat) (h : x < a ∨ a + bs.length ≤ x) :
    readByte (writeBytes mem a bs) x = readByte mem x := by
  induction bs generalizing mem a with
  | nil => rfl
  | cons b bs ih =>
    have hx : x ≠ a := by simp at h; omega
    rw [writeBytes, ih _ _ (by simp at h; omega), readByte_writeByte_other _ _ _ _ hx]

/-- Every entry of memory after one byte is placed was there before or is the placed one. -/
theorem mem_writeByte {mem : Memory} {a : Nat} {b : Byte} {x : Host.Cell} (h : x ∈ writeByte mem a b) :
    x ∈ mem ∨ x = (a, b) := by
  induction mem with
  | nil => simpa [writeByte] using h
  | cons y rest ih =>
    obtain ⟨k, c⟩ := y
    unfold writeByte at h
    split at h
    · simp at h ⊢; tauto
    · split at h
      · simp at h ⊢; tauto
      · simp at h ⊢
        rcases h with h | h
        · tauto
        · rcases ih h with h | h <;> tauto

theorem writeByte_wf (mem : Memory) (a : Nat) (b : Byte) (h : Memory.wf mem) : Memory.wf (writeByte mem a b) := by
  induction mem with
  | nil => simp [writeByte]
  | cons y rest ih =>
    obtain ⟨k, c⟩ := y
    have hrest := List.pairwise_cons.mp h
    unfold writeByte
    split
    · rename_i hak
      refine List.pairwise_cons.mpr ⟨fun z hz => ?_, h⟩
      rcases List.mem_cons.mp hz with rfl | hz
      · exact hak
      · exact lt_trans hak (hrest.1 z hz)
    · split
      · rename_i e; subst e
        exact List.pairwise_cons.mpr ⟨fun z hz => hrest.1 z hz, hrest.2⟩
      · refine List.pairwise_cons.mpr ⟨fun z hz => ?_, ih hrest.2⟩
        rcases mem_writeByte hz with hz | rfl
        · exact hrest.1 z hz
        · show k < a; omega

theorem writeBytes_wf (bs : List Byte) (mem : Memory) (a : Nat) (h : Memory.wf mem) :
    Memory.wf (writeBytes mem a bs) := by
  induction bs generalizing mem a with
  | nil => exact h
  | cons b bs ih => exact ih _ _ (writeByte_wf mem a b h)

end Sys2Proof.Machine
end

