-- ==== Sys2Proof/Laws/State.lean ====
section
/-! SUPPORT. What each update of the state leaves in each field: one lemma a field and an update, so that no later proof
unfolds a record update. -/

namespace Sys2Proof.Machine

section Updates

variable (s : State) (m : Mxl) (n : Nat) (v : BitVec m.len)

@[simp] theorem writeX_cfg : (writeX m n v s).cfg = s.cfg := by unfold writeX; split <;> rfl
@[simp] theorem writeX_pc : (writeX m n v s).pc = s.pc := by unfold writeX; split <;> rfl
@[simp] theorem writeX_priv : (writeX m n v s).priv = s.priv := by unfold writeX; split <;> rfl
@[simp] theorem writeX_mxl : (writeX m n v s).mxl = s.mxl := by unfold writeX; split <;> rfl
@[simp] theorem writeX_params : (writeX m n v s).params = s.params := by unfold writeX; split <;> rfl
@[simp] theorem writeX_mem : (writeX m n v s).mem = s.mem := by unfold writeX; split <;> rfl
@[simp] theorem writeX_env : (writeX m n v s).env = s.env := by unfold writeX; split <;> rfl
@[simp] theorem writeX_tick : (writeX m n v s).tick = s.tick := by unfold writeX; split <;> rfl
@[simp] theorem writeX_zero : writeX m 0 v s = s := by simp [writeX]

@[simp] theorem advancePc_cfg : (advancePc m s).cfg = s.cfg := rfl
@[simp] theorem advancePc_regs : (advancePc m s).regs = s.regs := rfl
@[simp] theorem advancePc_pc :
    (advancePc m s).pc = writeXWord m (readXWord m s.pc + 4) (Config.freeUpperPc s.tick) := rfl
@[simp] theorem advancePc_priv : (advancePc m s).priv = s.priv := rfl
@[simp] theorem advancePc_mxl : (advancePc m s).mxl = s.mxl := rfl
@[simp] theorem advancePc_params : (advancePc m s).params = s.params := rfl
@[simp] theorem advancePc_mem : (advancePc m s).mem = s.mem := rfl
@[simp] theorem advancePc_env : (advancePc m s).env = s.env := rfl
@[simp] theorem advancePc_tick : (advancePc m s).tick = s.tick := rfl
@[simp] theorem readX_advancePc (m' : Mxl) : readX m' n (advancePc m s) = readX m' n s := rfl

@[simp] theorem resetTransition_cfg :
    (resetTransition s).cfg = resetCells s.params (Config.resetDraw s.tick) := rfl
@[simp] theorem resetTransition_regs : (resetTransition s).regs = Vector.replicate 32 XWord.zero := rfl
@[simp] theorem resetTransition_pc : (resetTransition s).pc = XWord.zero := rfl
@[simp] theorem resetTransition_priv : (resetTransition s).priv = .machine := rfl
@[simp] theorem resetTransition_mxl : (resetTransition s).mxl = s.mxl := rfl
@[simp] theorem resetTransition_params : (resetTransition s).params = s.params := rfl
@[simp] theorem resetTransition_mem : (resetTransition s).mem = s.mem := rfl
@[simp] theorem resetTransition_env : (resetTransition s).env = s.env := rfl
@[simp] theorem resetTransition_tick : (resetTransition s).tick = s.tick := rfl

@[simp] theorem applyEvent_mem (e : EnvEvent) : (applyEvent e s).mem = s.mem := by cases e <;> rfl
@[simp] theorem applyEvent_params (e : EnvEvent) : (applyEvent e s).params = s.params := by cases e <;> rfl
theorem applyEvent_cfg (e : EnvEvent) (h : e ≠ .reset) : (applyEvent e s).cfg = s.cfg := by
  cases e <;> first | rfl | exact absurd rfl h
theorem applyEvent_pc (e : EnvEvent) (h : e ≠ .reset) : (applyEvent e s).pc = s.pc := by
  cases e <;> first | rfl | exact absurd rfl h
theorem applyEvent_regs (e : EnvEvent) (h : e ≠ .reset) : (applyEvent e s).regs = s.regs := by
  cases e <;> first | rfl | exact absurd rfl h

@[simp] theorem endStep_cfg : (endStep s).cfg = (applyEvent (nextEvent s) s).cfg := rfl
@[simp] theorem endStep_regs : (endStep s).regs = (applyEvent (nextEvent s) s).regs := rfl
@[simp] theorem endStep_pc : (endStep s).pc = (applyEvent (nextEvent s) s).pc := rfl
@[simp] theorem endStep_priv : (endStep s).priv = (applyEvent (nextEvent s) s).priv := rfl
@[simp] theorem endStep_mxl : (endStep s).mxl = (applyEvent (nextEvent s) s).mxl := rfl
@[simp] theorem endStep_params : (endStep s).params = s.params := applyEvent_params s _
@[simp] theorem endStep_mem : (endStep s).mem = s.mem := applyEvent_mem s _
@[simp] theorem endStep_env : (endStep s).env = s.env.tail := rfl
@[simp] theorem endStep_tick : (endStep s).tick = s.tick + 1 := rfl

end Updates

end Sys2Proof.Machine
end

