-- ==== Sys2Proof/Laws/Ops.lean ====
section
/-! SUPPORT. What each shared operation can do, said once: registers, the access shared by the six instructions, the
memory check, the fetch and the step. -/

namespace Sys2Proof.Machine

/-! ### Registers -/

@[simp] theorem readX_zero (m : Mxl) (s : State) : readX m 0 s = 0 := rfl

/-- What is written under a length is read back under it. -/
@[simp] theorem readXWord_writeXWord (m : Mxl) (v : BitVec m.len) (free : BitVec 32) :
    readXWord m (writeXWord m v free) = v := by
  cases m
  · rfl
  · show v.extractLsb' 32 32 ++ v.extractLsb' 0 32 = v
    ext i hi
    rw [BitVec.getElem_append]
    split
    · simp; rfl
    · have : 32 + (i - 32) = i := by omega
      simp [this]; rfl

theorem readX_writeX_same (m : Mxl) {n : Nat} (v : BitVec m.len) (s : State) (h0 : n ≠ 0) (h : n < 32) :
    readX m n (writeX m n v s) = v := by
  simp [readX, writeX, h0, h]

theorem readX_writeX_other (m m' : Mxl) {n k : Nat} (v : BitVec m.len) (s : State) (h : k ≠ n) :
    readX m' k (writeX m n v s) = readX m' k s := by
  by_cases hn : n = 0
  · subst hn; rw [writeX_zero]
  · simp [writeX, readX, hn, Vector.getElem?_setIfInBounds_ne h.symm]

@[simp] theorem readX_with_cfg (m : Mxl) (n : Nat) (s : State) (cells : Cells) :
    readX m n { s with cfg := cells } = readX m n s := rfl

/-! ### The access shared by the six instructions -/

@[simp] theorem accessAllowed_iff (s : State) : accessAllowed s = true ↔ MayAccess s := by
  simp [accessAllowed]

section Access

variable (i : Instr) (rd : Nat) (writes : Bool) (s : State) (present : BitVec s.mxl.len → BitVec s.mxl.len)

/-- The state a completed access leaves. -/
theorem accessCsr_allowed (h : MayAccess s) :
    accessCsr i pmpcfg10Address rd writes s present =
      .next (advancePc s.mxl (writeX s.mxl rd (csrRead s.mxl s.cfg)
        { s with cfg := if writes then csrWrite s.params s.mxl (present (csrRead s.mxl s.cfg)) s.cfg else s.cfg })) := by
  simp [accessCsr, (accessAllowed_iff s).mpr h]

theorem accessCsr_refused (h : ¬ MayAccess s) :
    accessCsr i pmpcfg10Address rd writes s present = .fault (.exception (.illegalInstruction (encode i))) := by
  have : ¬ accessAllowed s = true := fun h' => h ((accessAllowed_iff s).mp h')
  simp [accessCsr, this, raiseException]

theorem accessCsr_other {csr : BitVec 12} (h : csr ≠ pmpcfg10Address) :
    accessCsr i csr rd writes s present =
      if illegalByAddress csr writes s.priv then .fault (.exception (.illegalInstruction (encode i)))
      else .refused (.otherCsr csr) := by
  simp [accessCsr, h, raiseException]

/-- Everything an access that answers a next state has done. -/
theorem accessCsr_next {csr : BitVec 12} {t : State} (h : accessCsr i csr rd writes s present = .next t) :
    csr = pmpcfg10Address ∧ MayAccess s ∧
    t = advancePc s.mxl (writeX s.mxl rd (csrRead s.mxl s.cfg)
      { s with cfg := if writes then csrWrite s.params s.mxl (present (csrRead s.mxl s.cfg)) s.cfg else s.cfg }) := by
  by_cases hc : csr = pmpcfg10Address
  · subst hc
    by_cases ha : MayAccess s
    · rw [accessCsr_allowed i rd writes s present ha] at h
      exact ⟨rfl, ha, (Host.Outcome.next.inj h).symm⟩
    · rw [accessCsr_refused i rd writes s present ha] at h; cases h
  · rw [accessCsr_other i rd writes s present hc] at h
    split at h <;> cases h

end Access

/-- Every instruction is one access, with its own CSR, destination and value presented. -/
theorem exec_is_access (i : Instr) (s : State) :
    exec i s = accessCsr i i.csr i.rd i.writes s (presented i s.mxl fun n => readX s.mxl n s) := by
  cases i <;> rfl

/-! ### Memory checks and the fetch -/

theorem guardAccess_none {σ : Type} {s : State} {a : Access} (h : pmpVerdict s a = none)
    (access : Host.Outcome σ Fault Refusal) : guardAccess s a access = access := by
  simp [guardAccess, h]

theorem guardAccess_some {σ : Type} {s : State} {a : Access} {e : Exception} (h : pmpVerdict s a = some e)
    (access : Host.Outcome σ Fault Refusal) : guardAccess s a access = .fault (.exception e) := by
  simp [guardAccess, h, raiseException]

/-- An entry raises nothing exactly when its checks do not apply or the permission bit is set. -/
theorem entryVerdict_eq_none {b : Byte} {a : Access} :
    entryVerdict b a = none ↔ (checksApply b a.priv = true → permissionBit b a.kind = true) := by
  unfold entryVerdict
  cases checksApply b a.priv <;> cases permissionBit b a.kind <;> simp

/-- What raises an Access Fault: the field whose verdict counts, with its checks applying and its bit clear. -/
theorem pmpVerdict_some {s : State} {a : Access} {e : Exception} (h : pmpVerdict s a = some e) :
    s.params.smpmp = true ∧ ∃ k, selectedField s a = some k ∧ entryVerdict s.cfg[k] a = some e := by
  unfold pmpVerdict at h
  split at h
  · refine ⟨‹_›, ?_⟩
    split at h
    · cases h
    · exact ⟨_, ‹_›, h⟩
  · cases h

/-- The field whose verdict counts is one of the fields the access matches. -/
theorem selectedField_mem {s : State} {a : Access} {k : Field} (h : selectedField s a = some k) :
    k ∈ matchingFields s a := by
  unfold selectedField at h
  dsimp only at h
  split at h
  · cases h
  · split at h
    · cases h; assumption
    · cases h

theorem readBytes_next {mem : Memory} {a n : Nat} {bs : List Byte} (h : readBytes mem a n = .next bs) :
    bs.length = n ∧ ∀ j < n, readByte mem (a + j) = bs[j]? := by
  induction n generalizing a bs with
  | zero => cases h; simp
  | succ n ih =>
    unfold readBytes at h
    split at h
    · cases h
    · rename_i b hb
      split at h
      · rename_i rest hrest
        cases h
        obtain ⟨hl, hr⟩ := ih hrest
        refine ⟨by simp [hl], fun j hj => ?_⟩
        cases j with
        | zero => simpa using hb
        | succ j =>
          have := hr j (by omega)
          simpa [Nat.add_assoc, Nat.add_comm 1 j] using this
      · cases h
      · cases h

/-- A fetch that succeeds is aligned, raises nothing, and gives four bytes. -/
theorem fetchBytes_next {s : State} {bytes : List Byte} (h : fetchBytes s = .next bytes) :
    fetchAddr s % 4 = 0 ∧ pmpVerdict s (fetchAccess s) = none ∧
    readBytes s.mem (fetchAddr s) 4 = .next bytes := by
  unfold fetchBytes at h
  split at h
  · refine ⟨‹_›, ?_⟩
    cases hv : pmpVerdict s (fetchAccess s) with
    | some e => rw [guardAccess_some hv] at h; cases h
    | none => exact ⟨rfl, by rwa [guardAccess_none hv] at h⟩
  · cases h

/-! ### The step -/

/-- Everything a step that answers a next state has done. -/
theorem step_next {s t : State} (h : step s = .next t) :
    ∃ bytes i u, fetchBytes s = .next bytes ∧ decodeBytes bytes = .ok i ∧ exec i s = .next u ∧ t = endStep u := by
  unfold step at h
  split at h
  · cases h
  · cases h
  · rename_i bytes hf
    split at h
    · cases h
    · rename_i i hd
      split at h
      · rename_i u hu
        exact ⟨bytes, i, u, hf, hd, hu, (Host.Outcome.next.inj h).symm⟩
      · cases h
      · cases h

/-! ### Runs -/

/-- A longer run of any machine is one step and then a run. -/
theorem core_run_succ_next (M : Host.Core) {n : Nat} {s t : M.State} (h : M.run (n + 1) s = .next t) :
    ∃ u, M.step s = .next u ∧ M.run n u = .next t := by
  rw [Host.Core.run] at h
  split at h
  · exact ⟨_, ‹_›, h⟩
  · cases h
  · cases h

theorem run_zero_next {s t : State} (h : Sys2Proof.core.run 0 s = .next t) : t = s := by
  cases h; rfl

/-- A longer run of this machine is one step and then a run. -/
theorem run_succ_next {n : Nat} {s t : State} (h : Sys2Proof.core.run (n + 1) s = .next t) :
    ∃ u : State, step s = .next u ∧ Sys2Proof.core.run n u = .next t :=
  core_run_succ_next Sys2Proof.core h

end Sys2Proof.Machine
end

