-- ==== Sys2Proof/Laws/PerInstr.lean ====
section
/-! SUPPORT. Statements about every instruction as syntax, one lemma per constructor. -/

namespace Sys2Proof.Laws

/-- The match column of an instruction's row in spec/opcode_table.json (30_encoding.md R63). -/
def rowMatch : Instr → BitVec 32
  | .csrrw _ _ _ => 0x00001073#32
  | .csrrs _ _ _ => 0x00002073#32
  | .csrrc _ _ _ => 0x00003073#32
  | .csrrwi _ _ _ => 0x00005073#32
  | .csrrsi _ _ _ => 0x00006073#32
  | .csrrci _ _ _ => 0x00007073#32

/-- The encoding of an instruction has its row's fixed bits under the row's mask. -/
def FixedBits.Statement (i : Instr) : Prop := encode i &&& 0x0000707f#32 = rowMatch i

theorem FixedBits.csrrw (rd : Nat) (csr : BitVec 12) (rs1 : Nat) : FixedBits.Statement (.csrrw rd csr rs1) :=
  (packWord_and_mask _ _ _ _).trans rfl

theorem FixedBits.csrrs (rd : Nat) (csr : BitVec 12) (rs1 : Nat) : FixedBits.Statement (.csrrs rd csr rs1) :=
  (packWord_and_mask _ _ _ _).trans rfl

theorem FixedBits.csrrc (rd : Nat) (csr : BitVec 12) (rs1 : Nat) : FixedBits.Statement (.csrrc rd csr rs1) :=
  (packWord_and_mask _ _ _ _).trans rfl

theorem FixedBits.csrrwi (rd : Nat) (csr : BitVec 12) (uimm : BitVec 5) :
    FixedBits.Statement (.csrrwi rd csr uimm) :=
  (packWord_and_mask _ _ _ _).trans rfl

theorem FixedBits.csrrsi (rd : Nat) (csr : BitVec 12) (uimm : BitVec 5) :
    FixedBits.Statement (.csrrsi rd csr uimm) :=
  (packWord_and_mask _ _ _ _).trans rfl

theorem FixedBits.csrrci (rd : Nat) (csr : BitVec 12) (uimm : BitVec 5) :
    FixedBits.Statement (.csrrci rd csr uimm) :=
  (packWord_and_mask _ _ _ _).trans rfl

end Sys2Proof.Laws
end

