-- ==== Sys2Proof/Tests/Slice0.lean ====
section
/-! SUPPORT. Tests on fixed values: ill-formed terms, words written out from the encoding, the vectors of
95_test_vectors.md, and for each statement with hypotheses a state that meets them. -/

namespace Sys2Proof.Tests

open Sys2Proof Sys2Proof.Machine

/-! ### Helpers -/

/-- Parameters with `NUM_PMP_ENTRIES` and `PMP_GRANULARITY` as given; nothing matches. -/
def testParams (num g : Nat) : Params :=
  { smpmp := true, numPmpEntries := num, pmpGranularity := g, pmpMatch := [], pmpPick := [], codes := {} }

/-- A state in M-mode at `pc` 0x1000 with the given parameters, length and cells, every register 0
(95_test_vectors.md section 5). -/
def testState (p : Params) (m : Mxl) (cells : Cells) : State :=
  { cfg := cells, regs := Vector.replicate 32 XWord.zero, pc := { lo := 0x1000, hi := 0 }, priv := .machine
    mxl := m, params := p, mem := [], env := [], tick := 1 }

/-- All cells `00` but field 40. -/
def only40 (b : Byte) : Cells := #v[b, 0, 0, 0, 0, 0, 0, 0]

/-- The cells `01 03 05 07 09 0b 0d 0f` of vectors Rd1, I18 and I19. -/
def oddCells : Cells := #v[0x01, 0x03, 0x05, 0x07, 0x09, 0x0b, 0x0d, 0x0f]

/-- The usual machine of 95_test_vectors.md section 5: `mxl = 0`, NUM = 64, G = 1. -/
def usual (b : Byte) : State := testState (testParams 64 1) .zero (only40 b)

/-- The machine of `usual` with the given cells and every access of four bytes at 0x1000 matching the entry of field `k`
under the given mode, which counts, in a mode other than M. -/
def guardedAt (k : Field) (mode : AMode) (cells : Cells) : State :=
  let a : Access := { kind := .fetch, priv := .other, addr := 0x1000, size := 4 }
  { usual 0 with
    cfg := cells
    priv := .other
    params := { testParams 64 1 with
      pmpMatch := [{ entry := k.entry, mode := mode, first := 0x1000, last := 0x1000, size := 4 }]
      pmpPick := [{ access := a, matching := [k], pick := k },
        { access := { a with kind := .load }, matching := [k], pick := k },
        { access := { a with kind := .store }, matching := [k], pick := k },
        { access := { a with kind := .amo }, matching := [k], pick := k }] } }

/-- The same with field 40 at the given byte and NAPOT. -/
def guarded (b : Byte) : State := guardedAt 0 .napot (only40 b)

/-- The access of the given kind that `guarded` speaks of. -/
def guardedAccess (k : AccessKind) : Access := { kind := k, priv := .other, addr := 0x1000, size := 4 }

/-- A fact about the next state, false where there is none. -/
def after (o : Host.Outcome State Fault Refusal) (f : State → Bool) : Bool :=
  match o with
  | .next t => f t
  | .fault _ => false
  | .refused _ => false

/-! ### Ill-formed terms, one for each check of WellFormed -/

theorem test_illformed_csrrw_rd : ¬ WellFormed (.csrrw 32 0x3aa#12 0) := by decide
theorem test_illformed_csrrw_rs1 : ¬ WellFormed (.csrrw 0 0x3aa#12 32) := by decide
theorem test_illformed_csrrs_rd : ¬ WellFormed (.csrrs 32 0x3aa#12 0) := by decide
theorem test_illformed_csrrs_rs1 : ¬ WellFormed (.csrrs 0 0x3aa#12 32) := by decide
theorem test_illformed_csrrc_rd : ¬ WellFormed (.csrrc 32 0x3aa#12 0) := by decide
theorem test_illformed_csrrc_rs1 : ¬ WellFormed (.csrrc 0 0x3aa#12 32) := by decide
theorem test_illformed_csrrwi_rd : ¬ WellFormed (.csrrwi 32 0x3aa#12 0#5) := by decide
theorem test_illformed_csrrsi_rd : ¬ WellFormed (.csrrsi 32 0x3aa#12 0#5) := by decide
theorem test_illformed_csrrci_rd : ¬ WellFormed (.csrrci 32 0x3aa#12 0#5) := by decide
theorem test_wellformed_boundary : WellFormed (.csrrw 31 0xfff#12 31) := by decide

/-! ### Words written out bit by bit from 30_encoding.md R60 and R63 (words of 95_test_vectors.md section 5) -/

theorem test_decode_csrrw :
    decodeWord 0b001110101010_00101_001_00110_1110011#32 = .ok (.csrrw 6 0x3aa#12 5) := by decide
theorem test_decode_csrrs :
    decodeWord 0b001110101010_00110_010_00101_1110011#32 = .ok (.csrrs 5 0x3aa#12 6) := by decide
theorem test_decode_csrrc :
    decodeWord 0b001110101010_01100_011_01011_1110011#32 = .ok (.csrrc 11 0x3aa#12 12) := by decide
theorem test_decode_csrrwi :
    decodeWord 0b001110101010_11111_101_00000_1110011#32 = .ok (.csrrwi 0 0x3aa#12 0x1f#5) := by decide
theorem test_decode_csrrsi :
    decodeWord 0b001110101010_00100_110_01101_1110011#32 = .ok (.csrrsi 13 0x3aa#12 4#5) := by decide
theorem test_decode_csrrci :
    decodeWord 0b001110101010_00011_111_01001_1110011#32 = .ok (.csrrci 9 0x3aa#12 3#5) := by decide

/-- Little-endian: the byte with the opcode is the first (R60). -/
theorem test_decode_bytes : decodeBytes [0x73, 0x93, 0xa2, 0x3a] = .ok (.csrrw 6 0x3aa#12 5) := by decide
/-- The opcode table's own numbering, for a CSR other than this one. -/
theorem test_decode_table_word : decodeTableWord 32 0xfff0d0f3 = some (.csrrwi 1 0xfff#12 1#5) := by decide
/-- `funct3` 0 and 4 are no CSR access (R63), and another opcode is none either. -/
theorem test_decode_rejects :
    decodeWord 0x00000073#32 = .error .notCsrAccess ∧ decodeWord 0x3aa04073#32 = .error .notCsrAccess ∧
    decodeWord 0x3aa29333#32 = .error .otherOpcode ∧ decodeBytes [0x73, 0x93, 0xa2] = .error .tooShort := by decide

/-! ### Vectors of 95_test_vectors.md -/

/-- Section 2, W1 to W20: old, new, G, result. -/
def writeVectorsA : List (Byte × Byte × Nat × Byte) :=
  [(0x00, 0x1f, 1, 0x1f), (0x00, 0x1f, 2, 0x1f), (0x00, 0x17, 1, 0x17), (0x00, 0x17, 2, 0x00), (0x00, 0x0f, 2, 0x0f),
   (0x0f, 0x0e, 1, 0x0f), (0x0f, 0x0c, 1, 0x0c), (0x0f, 0x0a, 1, 0x0f), (0x0f, 0x02, 1, 0x0f), (0x0f, 0x06, 1, 0x0f),
   (0x00, 0x9b, 1, 0x9b), (0x9b, 0x00, 1, 0x9b), (0x9b, 0x1f, 1, 0x9b), (0x9b, 0x9f, 1, 0x9b), (0x80, 0x1f, 1, 0x80),
   (0x00, 0xff, 1, 0x9f), (0x00, 0xff, 2, 0x9f), (0x00, 0x7f, 1, 0x1f), (0x00, 0x60, 1, 0x00), (0x1f, 0x60, 1, 0x00)]

/-- Section 2, W21 to W39. -/
def writeVectorsB : List (Byte × Byte × Nat × Byte) :=
  [(0x00, 0x80, 1, 0x80), (0x00, 0x82, 1, 0x00), (0x0f, 0x92, 1, 0x0f), (0x0f, 0x97, 2, 0x0f), (0x0f, 0x97, 1, 0x97),
   (0x0f, 0x1a, 1, 0x0f), (0x09, 0x0b, 1, 0x0b), (0x08, 0x0a, 1, 0x08), (0x18, 0x10, 2, 0x18), (0x18, 0x10, 1, 0x10),
   (0x00, 0x01, 2, 0x01), (0x00, 0x03, 2, 0x03), (0x00, 0x04, 2, 0x04), (0x00, 0x05, 2, 0x05), (0x00, 0x07, 2, 0x07),
   (0x00, 0x06, 2, 0x00), (0x00, 0x02, 2, 0x00), (0x00, 0x08, 2, 0x08), (0x1f, 0x00, 2, 0x00)]

theorem test_writeField_W1_to_W39 :
    (writeVectorsA ++ writeVectorsB).all
      (fun v => writeField (testParams 64 v.2.2.1) 40 v.1 v.2.1 == v.2.2.2) = true := by decide

/-- Section 2, W40 to W47: entry, NUM, result of presenting 1f to 00. -/
theorem test_writeField_W40_to_W47 :
    [(40, 40, 0x00#8), (40, 41, 0x1f#8), (43, 43, 0x00#8), (43, 44, 0x1f#8), (44, 44, 0x00#8), (44, 45, 0x1f#8),
     (47, 47, 0x00#8), (47, 48, 0x1f#8)].all
      (fun v => writeField (testParams v.2.1 1) v.1 0x00 0x1f == v.2.2) = true := by decide

/-- Section 3, V3 and V4: 32 bits, the two granularities. -/
theorem test_csrWrite_V3_V4 :
    csrWrite (testParams 64 1) .zero 0x9b1f0e17#32 #v[0, 0, 0, 0, 0x0f, 0x0f, 0x0f, 0x0f] =
      #v[0x17, 0x00, 0x1f, 0x9b, 0x0f, 0x0f, 0x0f, 0x0f] ∧
    csrWrite (testParams 64 2) .zero 0x9b1f0e17#32 #v[0, 0, 0, 0, 0x0f, 0x0f, 0x0f, 0x0f] =
      #v[0x00, 0x00, 0x1f, 0x9b, 0x0f, 0x0f, 0x0f, 0x0f] := by decide

/-- Section 3, V2, V6, V9 and V10: 64 bits, unimplemented, locked, rejected fields. -/
theorem test_csrWrite_V2_V6_V9_V10 :
    csrWrite (testParams 44 1) .one 0x1f1f1f1f1f1f1f1f#64 (only40 0) = #v[0x1f, 0x1f, 0x1f, 0x1f, 0, 0, 0, 0] ∧
    csrWrite (testParams 64 1) .one 0#64 #v[0x0f, 0x8f, 0x0f, 0x8f, 0x0f, 0x8f, 0x0f, 0x8f] =
      #v[0x00, 0x8f, 0x00, 0x8f, 0x00, 0x8f, 0x00, 0x8f] ∧
    csrWrite (testParams 48 2) .one 0x1011131415171819#64 #v[0x09, 0x08, 0x07, 0x05, 0x04, 0x03, 0x01, 0x00] =
      #v[0x19, 0x18, 0x07, 0x05, 0x04, 0x03, 0x01, 0x00] ∧
    csrWrite (testParams 64 2) .one 0x801f0a170f9b1800#64 (only40 0) =
      #v[0x00, 0x18, 0x9b, 0x0f, 0x00, 0x00, 0x1f, 0x80] := by decide

/-- Section 4, Rd1 to Rd4. -/
theorem test_csrRead_Rd1_to_Rd4 :
    csrRead .one oddCells = 0x0f0d0b0907050301#64 ∧ csrRead .zero oddCells = 0x07050301#32 ∧
    csrRead .one #v[0, 0, 0, 0, 0, 0, 0, 0x80] = 0x8000000000000000#64 ∧
    csrRead .zero #v[0, 0, 0, 0x80, 0, 0, 0, 0] = 0x80000000#32 := by decide

/-- Section 6, M1 to M10: cell, mode, kind, what is raised. -/
theorem test_entryVerdict_M1_to_M10 :
    [((0x1b#8, Priv.other, AccessKind.fetch), some Exception.insnAccessFault), ((0x1b#8, .other, .load), none),
     ((0x1b#8, .other, .store), none), ((0x1b#8, .machine, .fetch), none),
     ((0x9b#8, .machine, .fetch), some .insnAccessFault), ((0x99#8, .machine, .store), some .storeAmoAccessFault),
     ((0x99#8, .machine, .amo), some .storeAmoAccessFault), ((0x99#8, .machine, .load), none),
     ((0x1c#8, .other, .load), some .loadAccessFault), ((0x18#8, .other, .load), some .loadAccessFault),
     ((0x18#8, .other, .store), some .storeAmoAccessFault), ((0x18#8, .other, .fetch), some .insnAccessFault)].all
      (fun v => entryVerdict v.1.1 { kind := v.1.2.2, priv := v.1.2.1, addr := 0, size := 4 } == v.2) = true := by
  decide

/-- Section 6, M11 and M12: OFF matches nothing. -/
theorem test_off_matches_nothing_M11_M12 :
    selectedField (guarded 0x80) (guardedAccess .fetch) = none ∧
    selectedField (guarded 0x00) (guardedAccess .load) = none := by decide

/-- Section 7, Z1: with NUM = 40 every cell is 00 after reset, whatever is drawn. -/
theorem test_reset_Z1 : resetCells (testParams 40 1) (fun _ => 0x9f) = only40 0 := by decide

/-- Section 7, the bytes a careless model forgets can come out of reset; illegal ones cannot. -/
theorem test_reset_legal_draws :
    [0x80#8, 0x9f#8, 0x98#8].all (fun b => resetByte (testParams 64 2) 40 b == b) = true ∧
    [0x20#8, 0x02#8, 0x9e#8, 0x10#8].all (fun b => resetByte (testParams 64 2) 40 b == 0) = true := by decide

/-- The codes of 60_exceptions.md R91. -/
theorem test_illegal_instruction_code : excCode State.reset.params.codes (.illegalInstruction 0) = 2 := by decide

/-- The codes of `MXL` beyond the source's two have no meaning (93_implementation_defined.md U6). -/
theorem test_mxl_coding : Mxl.ofNat? 0 = some .zero ∧ Mxl.ofNat? 1 = some .one ∧ Mxl.ofNat? 2 = none := by decide

/-! ### Instructions (95_test_vectors.md section 5), at most two each, through one step from the word -/

/-- I1: a lock and a configuration in one write; `x6` gets the old value; `pc` advances. -/
theorem test_csrrw_I1 :
    after (step ((writeX .zero 5 0x9b#32 (usual 0)).withFetchWord 32 0x3aa29373))
      (fun t => t.cfg == only40 0x9b && readX .zero 6 t == 0 && t.pc == { lo := 0x1004, hi := 0 }) = true := by decide
/-- I22: 64 bits, G = 2, fields rejected one by one. -/
theorem test_csrrw_I22 :
    after (step ((writeX .one 5 0x801f0a170f9b1800#64 (testState (testParams 64 2) .one (only40 0))).withFetchWord 32
      0x3aa29073)) (fun t => t.cfg == #v[0x00, 0x18, 0x9b, 0x0f, 0x00, 0x00, 0x1f, 0x80]) = true := by decide
/-- I4: W alone where R = 0 is rejected; the old value is still read. -/
theorem test_csrrs_I4 :
    after (step ((writeX .zero 6 0x2#32 (usual 0x08)).withFetchWord 32 0x3aa322f3))
      (fun t => t.cfg == only40 0x08 && readX .zero 5 t == 0x8#32) = true := by decide
/-- I18: the read of all eight fields. -/
theorem test_csrrs_I18 :
    after (step ((testState (testParams 64 1) .one oddCells).withFetchWord 32 0x3aa02573))
      (fun t => t.cfg == oddCells && readX .one 10 t == 0x0f0d0b0907050301#64) = true := by decide
/-- I7: clearing R and W together is accepted. -/
theorem test_csrrc_I7 :
    after (step ((writeX .zero 12 0x3#32 (usual 0x0f)).withFetchWord 32 0x3aa635f3))
      (fun t => t.cfg == only40 0x0c && readX .zero 11 t == 0xf#32) = true := by decide
/-- I9: a locked field cannot be unlocked. -/
theorem test_csrrc_I9 :
    after (step ((writeX .zero 12 0x80#32 (usual 0x9b)).withFetchWord 32 0x3aa635f3))
      (fun t => t.cfg == only40 0x9b && readX .zero 11 t == 0x9b#32) = true := by decide
/-- I12: the other unlocked fields are cleared. -/
theorem test_csrrwi_I12 :
    after (step ((testState (testParams 64 1) .zero #v[0x0f, 0x0f, 0x8f, 0x0f, 0, 0, 0, 0]).withFetchWord 32 0x3aafd073))
      (fun t => t.cfg == #v[0x1f, 0x00, 0x8f, 0x00, 0, 0, 0, 0]) = true := by decide
/-- I13: NA4 rejected for field 40 while field 41 is cleared. -/
theorem test_csrrwi_I13 :
    after (step ((testState (testParams 64 2) .zero #v[0x0f, 0x0f, 0, 0, 0, 0, 0, 0]).withFetchWord 32 0x3aabd073))
      (fun t => t.cfg == only40 0x0f) = true := by decide
/-- I14: X added. -/
theorem test_csrrsi_I14 :
    after (step ((usual 0x09).withFetchWord 32 0x3aa266f3))
      (fun t => t.cfg == only40 0x0d && readX .zero 13 t == 0x9#32) = true := by decide
/-- I15: a zero immediate is a pure read. -/
theorem test_csrrsi_I15 :
    after (step ((usual 0x09).withFetchWord 32 0x3aa06073))
      (fun t => t.cfg == only40 0x09 && t.pc == { lo := 0x1004, hi := 0 }) = true := by decide
/-- I16: R and W cleared together. -/
theorem test_csrrci_I16 :
    after (step ((usual 0x0f).withFetchWord 32 0x3aa1f4f3))
      (fun t => t.cfg == only40 0x0c && readX .zero 9 t == 0xf#32) = true := by decide
/-- I17: clearing R alone is rejected. -/
theorem test_csrrci_I17 :
    after (step ((usual 0x0f).withFetchWord 32 0x3aa0f473))
      (fun t => t.cfg == only40 0x0f && readX .zero 8 t == 0xf#32) = true := by decide
/-- I20: outside M-mode, `IllegalInstruction` with the instruction word. -/
theorem test_illegal_I20 :
    step ({ usual 0x0f with priv := .other }.withFetchWord 32 0x3aa022f3) =
      .fault (.exception (.illegalInstruction 0x3aa022f3#32)) := rfl
/-- The first step after reset runs the instruction placed for it, whatever the open parameters are. -/
theorem test_first_step_after_reset :
    after (step (State.reset.withFetchWord 32 0x3aa29373)) (fun t => t.pc == { lo := 4, hi := 0 }) = true := by decide
/-- P6, first row: after a 32-bit read `mxl` becomes 1, and `x1` is the value zero-extended. -/
theorem test_environment_P6 :
    after (step ({ testState (testParams 64 1) .zero oddCells with env := [.setMxl .one] }.withFetchWord 32 0x3aa110f3))
      (fun t => t.mxl == .one && readX .one 1 t == 0x7050301#64 &&
        t.cfg == #v[0x00, 0x00, 0x00, 0x00, 0x09, 0x0b, 0x0d, 0x0f]) = true := by decide

/-! ### For each statement with hypotheses, concrete values that meet them, one for each clause -/

theorem test_witness_DecodeOfEncodeGivesInstructionBack :
    WellFormed (.csrrw 31 0xfff#12 31) ∧ WellFormed (.csrrci 0 0#12 0x1f#5) := by decide

theorem test_witness_EncodeOfDecodeGivesWordBack :
    decodeWord 0xfffff0f3#32 = .ok (.csrrci 1 0xfff#12 0x1f#5) := by decide

theorem test_witness_AccessesRegisterExactlyByAddress :
    decodeWord 0x3aa0f473#32 = .ok (.csrrci 8 pmpcfg10Address 1#5) ∧
    decodeWord 0x3ab0f473#32 = .ok (.csrrci 8 0x3ab#12 1#5) ∧
    csrField 0x3aa0f473#32 = 0x3aa#12 ∧ MayAccess (usual 0x0f) ∧ csrField 0x3ab0f473#32 ≠ 0x3aa#12 := by decide

theorem test_witness_DecodesExactlyTheSixForms :
    opcodeField 0x3aa29333#32 ≠ 0x73#7 ∧
    (opcodeField 0x73#32 = 0x73#7 ∧ funct3Field 0x73#32 = 0#3) ∧
    (opcodeField 0x4073#32 = 0x73#7 ∧ funct3Field 0x4073#32 = 4#3) ∧
    (opcodeField 0x7073#32 = 0x73#7 ∧ funct3Field 0x7073#32 ≠ 0#3 ∧ funct3Field 0x7073#32 ≠ 4#3) := by decide

theorem test_witness_PseudoInstructionEncodings : RegNumber 31 := by decide

theorem test_witness_RegisterBitsAreCellBits :
    (InView .zero 3 ∧ 7 < 8) ∧ (InView .one 7 ∧ 7 < 8) ∧ 31 < Mxl.zero.len ∧ 63 < Mxl.one.len := by decide

theorem test_witness_WriteUpdatesEachFieldAlone : InView .zero 3 ∧ InView .one 4 ∧ ¬ InView .zero 4 := by decide

theorem test_witness_WriteProperties :
    (¬ Implemented (testParams 41 2) 41 ∧ (¬ Implemented (testParams 41 2) 41 → 0x00#8 = 0x00#8)) ∧
    CellsLegal (testParams 64 1) oddCells ∧
    (Implemented (testParams 41 2) 40 ∧ Legal (testParams 41 2) 0x9f#8 ∧ bitL 0x9f#8 = true) ∧
    (InView .zero 3 ∧ InView .one 3 ∧ oddCells[(3 : Field)] = (#v[0, 0, 0, 7, 0, 0, 0, 0] : Cells)[(3 : Field)] ∧
      slice 0x1f000000#32 3 = slice 0x991f000000#64 3) := by decide

theorem test_witness_LockAndRejectionCornerCases :
    Implemented (testParams 41 2) 40 ∧ bitL 0x80#8 = true ∧ ReservedPermission 0x82#8 ∧
    Na4TooFine (testParams 41 2) 0x97#8 ∧
    (bitL 0x00#8 = false ∧ ¬ ReservedPermission 0x9b#8 ∧ ¬ Na4TooFine (testParams 41 2) 0x9b#8) := by decide

theorem test_witness_ReadBackShowsImplementedEntries :
    CellsLegal (testParams 41 1) (only40 0x0f) ∧ InView .zero 0 ∧ InView .zero 1 ∧
    bitL (only40 0x0f)[(0 : Field)] = false ∧ bitL (only40 0x0f)[(1 : Field)] = false ∧
    Legal (testParams 41 1) (slice 0x9f9f#32 0) ∧ Legal (testParams 41 1) (slice 0x9f9f#32 1) ∧
    Implemented (testParams 41 1) 40 ∧ ¬ Implemented (testParams 41 1) 41 := by decide

theorem test_witness_ReplacingOneFieldLeavesTheOthers :
    CellsLegal (testParams 64 1) oddCells ∧ InView .one 7 ∧ (6 : Field) ≠ 7 := by decide

theorem test_witness_MatchingModeOfEachValueOfA :
    (0x07#8).extractLsb' 3 2 = 0#2 ∧ (0x0f#8).extractLsb' 3 2 = 1#2 ∧ (0x17#8).extractLsb' 3 2 = 2#2 ∧
    (0x1f#8).extractLsb' 3 2 = 3#2 ∧ ¬ ReservedPermission 0x17#8 ∧ reservedBits 0x17#8 = 0#2 ∧
    2 ≤ (testParams 41 2).pmpGranularity ∧ Implemented (testParams 41 2) 40 ∧
    (¬ Implemented (testParams 41 2) 41 ∧ 0x00#8 = 0x00#8) := by decide

theorem test_witness_ReservedAndUnimplementedReadZero :
    CellsLegal (testParams 41 1) (only40 0x9f) ∧ InView .zero 3 ∧ ¬ Implemented (testParams 41 1) (Field.entry 3) := by
  decide

/-- For the six result statements, R13, R81 and the access check: well-formed forms at the bounds, a state that may
access, one in another mode and one without `Smpmp`. -/
theorem test_witness_CsrrwSwapsRegisterAndCsr :
    WellFormed (.csrrw 31 0x3aa#12 31) ∧ WellFormed (.csrrw 0 0x3aa#12 0) ∧ MayAccess (usual 0) ∧
    ¬ MayAccess (guarded 0) ∧ ¬ MayAccess { usual 0 with params := { testParams 64 1 with smpmp := false } } := by decide

theorem test_witness_CsrrsReadsAndSetsBits :
    WellFormed (.csrrs 31 0x3aa#12 31) ∧ WellFormed (.csrrs 0 0x3aa#12 0) ∧ MayAccess (usual 0) ∧
    ¬ MayAccess (guarded 0) := by decide

theorem test_witness_CsrrcReadsAndClearsBits :
    WellFormed (.csrrc 31 0x3aa#12 31) ∧ WellFormed (.csrrc 0 0x3aa#12 0) ∧ MayAccess (usual 0) ∧
    ¬ MayAccess (guarded 0) := by decide

theorem test_witness_CsrrwiWritesImmediate :
    WellFormed (.csrrwi 31 0x3aa#12 31#5) ∧ MayAccess (usual 0) ∧ ¬ MayAccess (guarded 0) := by decide

theorem test_witness_CsrrsiSetsImmediateBits :
    WellFormed (.csrrsi 31 0x3aa#12 31#5) ∧ MayAccess (usual 0x0f) ∧ ¬ MayAccess (guarded 0) ∧
    CellsLegal (usual 0x0f).params (usual 0x0f).cfg ∧ (1 : Field) ≠ 0 := by decide

theorem test_witness_CsrrciClearsImmediateBits :
    WellFormed (.csrrci 31 0x3aa#12 31#5) ∧ MayAccess (usual 0x0f) ∧ ¬ MayAccess (guarded 0) ∧
    CellsLegal (usual 0x0f).params (usual 0x0f).cfg ∧ (7 : Field) ≠ 0 := by decide

theorem test_witness_ZeroOperandSetAndClearChangeNothing :
    CellsLegal (usual 0x9f).params (usual 0x9f).cfg ∧ readX (usual 0x9f).mxl 7 (usual 0x9f) = 0 ∧
    (∃ t, exec (.csrrs 1 0x3aa#12 7) (usual 0x9f) = .next t) ∧ (∃ t, exec (.csrrc 1 0x3aa#12 7) (usual 0x9f) = .next t) :=
  ⟨by decide, by decide, ⟨_, rfl⟩, ⟨_, rfl⟩⟩

theorem test_witness_AccessCheckDecidesEveryForm :
    (Instr.csrrsi 0 0x3aa#12 0#5).csr = 0x3aa#12 ∧ MayAccess (usual 0) ∧ ¬ MayAccess (guarded 0) := by decide

theorem test_witness_RegisterReachedOnlyInMachineMode :
    (Instr.csrrc 0 0x3aa#12 0).csr = 0x3aa#12 ∧ (usual 0).params.smpmp = true := by decide

theorem test_witness_NextReadReturnsWhatTheWriteStored :
    ∃ t u, exec (.csrrw 0 0x3aa#12 5) (writeX .zero 5 0x1f#32 (usual 0)) = .next t ∧ (31 ≠ 0 ∧ 31 < 32) ∧
      exec (.csrrs 31 0x3aa#12 0) t = .next u ∧ InView (usual 0).mxl 3 :=
  ⟨_, _, rfl, by decide, rfl, by decide⟩

theorem test_witness_OtherCsrAccessStops :
    ((Instr.csrrs 1 0x300#12 0).csr ≠ 0x3aa#12 ∧ (guarded 0).priv = .other) ∧
    ((Instr.csrrwi 1 0xf11#12 0#5).csr ≠ 0x3aa#12 ∧ (Instr.csrrwi 1 0xf11#12 0#5).writes = true) ∧
    (Instr.csrrw 1 0x3ab#12 2).csr ≠ 0x3aa#12 := by decide

/-- A machine at 32 bits whose register has bit 31 set: the lock of field 43. -/
def topSet : State := testState (testParams 64 1) .zero #v[0, 0, 0, 0x80, 0, 0, 0, 0]

theorem test_witness_NarrowResultSeenWide :
    (usual 0x9f).mxl = .zero ∧ (Instr.csrrs 31 0x3aa#12 0).rd ≠ 0 ∧ (Instr.csrrs 31 0x3aa#12 0).rd < 32 ∧
    (csrRead .zero (usual 0x9f).cfg).getLsbD 31 = false ∧ (∃ t, exec (.csrrs 31 0x3aa#12 0) (usual 0x9f) = .next t) ∧
    (csrRead .zero topSet.cfg).getLsbD 31 = true ∧ topSet.mxl = .zero ∧
    ∃ t, exec (.csrrs 31 0x3aa#12 0) topSet = .next t :=
  ⟨rfl, by decide, by decide, by decide, ⟨_, rfl⟩, by decide, rfl, ⟨_, rfl⟩⟩

/-- One step from a state that meets the invariant, has a locked cell and no reset ahead, and changes a cell. -/
def stepping : State :=
  (writeX .one 5 0x9b00#64 (testState (testParams 64 1) .one (only40 0x9f))).withFetchWord 32 0x3aa29073

theorem test_witness_StepKeepsMachineWellFormed : Inv stepping ∧ ∃ t, step stepping = .next t :=
  ⟨by decide, ⟨_, rfl⟩⟩

theorem test_witness_LockedCellSurvivesEveryRunWithoutReset :
    Inv stepping ∧ NoResetAhead stepping ∧ Locked stepping 0 ∧ ∃ t : State, Sys2Proof.core.run 1 stepping = .next t :=
  ⟨by decide, by decide, by decide, ⟨_, rfl⟩⟩

theorem test_witness_OnlyWritesOrResetChangeCells :
    nextEvent stepping ≠ .reset ∧ after (step stepping) (fun t => t.cfg != stepping.cfg) = true ∧
    ∃ t, step stepping = .next t :=
  ⟨by decide, by decide, ⟨_, rfl⟩⟩

theorem test_witness_HiddenCellsNeitherShownNorChanged :
    SameInView (usual 0x0f) { usual 0x0f with cfg := #v[0x0f, 0, 0, 0, 1, 3, 5, 0x9f] } ∧
    (∃ t, exec (.csrrw 1 0x3aa#12 2) (usual 0x0f) = .next t) ∧ ¬ InView (usual 0x0f).mxl 4 :=
  ⟨by decide, ⟨_, rfl⟩, by decide⟩

theorem test_witness_FetchWithoutExecutePermissionFaults :
    (guarded 0x1b).params.smpmp = true ∧ fetchAddr (guarded 0x1b) % 4 = 0 ∧
    selectedField (guarded 0x1b) (fetchAccess (guarded 0x1b)) = some 0 ∧ (guarded 0x1b).priv = .other ∧
    (guarded 0x1b).cfg[(0 : Field)].getLsbD 2 = false := by decide

theorem test_witness_AccessFaultPerKindOfAccess :
    (guarded 0x18).params.smpmp = true ∧ Priv.other ≠ .machine ∧
    [AccessKind.fetch, .load, .store, .amo].all
      (fun k => selectedField (guarded 0x18) (guardedAccess k) == some 0) = true ∧
    (guarded 0x18).cfg[(0 : Field)].getLsbD 2 = false ∧ (guarded 0x18).cfg[(0 : Field)].getLsbD 0 = false ∧
    (guarded 0x18).cfg[(0 : Field)].getLsbD 1 = false := by decide

theorem test_witness_NoAccessFaultWithoutCause :
    pmpVerdict (guarded 0x99) (guardedAccess .amo) = some .storeAmoAccessFault := by decide

theorem test_witness_OffEntryMatchesNothing :
    selectedField (guarded 0x99) (guardedAccess .load) = some 0 ∧
    CellsLegal (guarded 0x99).params (guarded 0x99).cfg ∧
    (selectedField (guardedAt 0 .tor (only40 0x89)) (guardedAccess .load) = some 0 ∧
      (only40 0x89)[(0 : Field)].extractLsb' 3 2 = 1#2) ∧
    (selectedField (guardedAt 0 .na4 (only40 0x91)) (guardedAccess .load) = some 0 ∧
      (only40 0x91)[(0 : Field)].extractLsb' 3 2 = 2#2) ∧
    (only40 0x99)[(0 : Field)].extractLsb' 3 2 = 3#2 := by decide

theorem test_witness_AmoPassingWriteTestPassesReadTest :
    CellsLegal (guarded 0x1b).params (guarded 0x1b).cfg ∧ (guardedAccess .amo).kind = .amo ∧
    entryVerdict (guarded 0x1b).cfg[(0 : Field)] (guardedAccess .amo) = none := by decide

/-- In M-mode, field `k` under NAPOT with byte 1b, and 0x18, 4 and 3 in `x5`, `x6` and `x7`. -/
def rewriting (k : Field) : State :=
  writeX .zero 5 0x18#32 (writeX .zero 6 4#32 (writeX .zero 7 3#32
    { guardedAt k .napot (Vector.replicate 8 0x1b) with priv := .machine }))

/-- Every writing form on field 40, a form that does not write, and a field outside the register. -/
theorem test_witness_WriteGovernsTheNextAccess :
    [Instr.csrrw 0 0x3aa#12 5, .csrrs 0 0x3aa#12 6, .csrrc 0 0x3aa#12 7, .csrrwi 0 0x3aa#12 24#5, .csrrsi 0 0x3aa#12 4#5,
      .csrrci 0 0x3aa#12 3#5].all (fun i => i.csr == 0x3aa#12 && i.writes &&
        after (exec i (rewriting 0)) fun t =>
          selectedField t (guardedAccess .load) == some 0 && t.cfg[(0 : Field)] != (rewriting 0).cfg[(0 : Field)]) = true ∧
    InView (rewriting 0).mxl 0 ∧
    ((Instr.csrrs 0 0x3aa#12 0).writes = false ∧
      after (exec (.csrrs 0 0x3aa#12 0) (rewriting 0)) (fun t => selectedField t (guardedAccess .load) == some 0) = true) ∧
    (¬ InView (rewriting 4).mxl 4 ∧
      after (exec (.csrrw 0 0x3aa#12 5) (rewriting 4)) (fun t => selectedField t (guardedAccess .load) == some 4) = true) :=
  by decide

theorem test_witness_StepRunsTheDecodedInstruction :
    (fetchBytes stepping = .next [0x73, 0x90, 0xa2, 0x3a] ∧
      decodeBytes [0x73, 0x90, 0xa2, 0x3a] = .ok (.csrrw 0 0x3aa#12 5)) ∧
    (∃ t, exec (.csrrw 0 0x3aa#12 5) stepping = .next t) ∧
    exec (.csrrw 0 0x3aa#12 5) { stepping with priv := .other } =
      .fault (.exception (.illegalInstruction 0x3aa29073#32)) ∧
    exec (.csrrw 0 0x3ab#12 5) stepping = .refused (.otherCsr 0x3ab#12) :=
  ⟨⟨rfl, by decide⟩, ⟨_, rfl⟩, rfl, rfl⟩

theorem test_witness_PlacedWordIsRunNext :
    WellFormed (.csrrw 31 0x3aa#12 31) ∧ fetchAddr (guarded 0x1f) % 4 = 0 ∧
    pmpVerdict (guarded 0x1f) (fetchAccess (guarded 0x1f)) = none ∧
    (0xfff < fetchAddr (guarded 0x1f) ∧ fetchAddr (guarded 0x1f) + 4 ≤ 0x1004) ∧
    (∃ t, exec (.csrrw 31 0x3aa#12 31) ((usual 0).withFetchWord 32 0x3aaf9ff3) = .next t) ∧
    exec (.csrrw 31 0x3aa#12 31) ((guarded 0x1f).withFetchWord 32 0x3aaf9ff3) =
      .fault (.exception (.illegalInstruction 0x3aaf9ff3#32)) ∧
    exec (.csrrw 31 0x3ab#12 31) ((usual 0).withFetchWord 32 0x3abf9ff3) = .refused (.otherCsr 0x3ab#12) ∧
    (fetchAddr (usual 0) % 4 = 0 ∧ pmpVerdict (usual 0) (fetchAccess (usual 0)) = none) :=
  ⟨by decide, by decide, by decide, by decide, ⟨_, rfl⟩, rfl, rfl, by decide⟩

theorem test_witness_EnvironmentEventEffects :
    [EnvEvent.hold, .setMxl .one, .setPriv .other, .reset].all
      (fun e => nextEvent { usual 0 with env := [e] } == e) = true := by decide

theorem test_witness_OtherWordsAndMisalignedPcRefused :
    fetchAddr { usual 0 with pc := { lo := 0x1002, hi := 0 } } % 4 ≠ 0 ∧
    fetchBytes ((usual 0).withFetchWord 32 0x00000013) = .next [0x13, 0, 0, 0] ∧
    decodeWord 0x00000013#32 = .error .otherOpcode :=
  ⟨by decide, rfl, by decide⟩

theorem test_witness_ParametersNeverChange : ∃ t : State, Sys2Proof.core.run 1 stepping = .next t := ⟨_, rfl⟩

end Sys2Proof.Tests
end

/-! ## Family 10_state: the register as a view of the cells, reset, the mode A, who reaches the register -/

namespace Sys2Proof.Machine

/-! ### Bits of the register (10_state.md R12, R14, R15, R25) -/

/-- A field whose first bit lies inside the register's length is part of the register. -/
theorem inView_of_bound {m : Mxl} {k : Field} (h : 8 * k.val < m.len) : InView m k := by
  cases m with
  | zero =>
    have : 8 * k.val < 32 := h
    exact .inr (by omega)
  | one => exact .inl rfl

/-- The read rule bit by bit, from the read rule slice by slice. -/
theorem getLsbD_csrRead {m : Mxl} {k : Field} {b : Nat} (h : InView m k) (hb : b < 8) (cells : Cells) :
    (csrRead m cells).getLsbD (8 * k.val + b) = cells[k].getLsbD b := by
  rw [← slice_csrRead h cells]
  simp [slice, hb]

/-- Every bit position of the register is a bit of a field in view: quotient and remainder by 8. -/
theorem exists_field_bit_of_lt_len {m : Mxl} {j : Nat} (hj : j < m.len) :
    ∃ (k : Field) (b : Nat), InView m k ∧ b < 8 ∧ j = 8 * k.val + b := by
  have hlen : m.len ≤ 64 := by cases m <;> decide
  have hk : j / 8 < 8 := by omega
  have hfirst : 8 * (j / 8) < m.len := by omega
  exact ⟨⟨j / 8, hk⟩, j % 8, inView_of_bound hfirst, Nat.mod_lt j (by decide), (Nat.div_add_mod j 8).symm⟩

/-! ### The outcomes of a reset (10_state.md R26) -/

theorem entry_injective : Function.Injective Field.entry := fun _ _ h => Fin.ext (Nat.add_left_cancel h)

theorem resetByte_unimplemented {p : Params} {n : Nat} (h : ¬ Implemented p n) (draw : Byte) :
    resetByte p n draw = 0x00#8 := if_pos h

theorem resetByte_legal {p : Params} {n : Nat} {draw : Byte} (h : Implemented p n) (hd : Legal p draw) :
    resetByte p n draw = draw := by
  rw [resetByte, if_neg (not_not.mpr h), if_pos hd]

theorem resetByte_illegal {p : Params} {n : Nat} {draw : Byte} (hd : ¬ Legal p draw) :
    resetByte p n draw = 0x00#8 := by
  rw [resetByte, if_neg hd, ite_self]

/-- Whatever is drawn, a reset leaves a legal byte. -/
theorem legal_resetByte (p : Params) (n : Nat) (draw : Byte) : Legal p (resetByte p n draw) := by
  by_cases hn : Implemented p n
  · by_cases hd : Legal p draw
    · rwa [resetByte_legal hn hd]
    · rw [resetByte_illegal hd]; exact legal_zero p
  · rw [resetByte_unimplemented hn]; exact legal_zero p

/-- The outcomes of the reset of one field, over all draws. -/
theorem exists_resetByte_eq_iff (p : Params) (n : Nat) (b : Byte) :
    (∃ draw, resetByte p n draw = b) ↔ if Implemented p n then Legal p b else b = 0x00#8 := by
  by_cases hn : Implemented p n
  · rw [if_pos hn]
    constructor
    · rintro ⟨draw, rfl⟩
      exact legal_resetByte p n draw
    · exact fun hb => ⟨b, resetByte_legal hn hb⟩
  · simp only [resetByte_unimplemented hn, exists_const, if_neg hn]
    exact eq_comm

/-- The eight draws are independent: a reset can leave eight cells exactly when it can leave each of them. -/
theorem exists_resetCells_eq_iff (p : Params) (cells : Cells) :
    (∃ draw, resetCells p draw = cells) ↔ ∀ k : Field, ∃ draw, resetByte p k.entry draw = cells[k] := by
  constructor
  · rintro ⟨draw, rfl⟩ k
    exact ⟨draw k.entry, (resetCells_getElem p draw k).symm⟩
  · intro h
    choose draw hdraw using h
    refine ⟨Function.extend Field.entry draw 0, cells_ext fun k => ?_⟩
    rw [resetCells_getElem, entry_injective.extend_apply, hdraw]

/-! ### The mode A (10_state.md R19, R22; 40_csr_access.md R71) -/

/-- A byte with no reserved combination and reserved bits 0 is legal unless its NA4 is too fine. -/
theorem legal_iff_not_na4TooFine {p : Params} {b : Byte} (hperm : ¬ ReservedPermission b)
    (hres : reservedBits b = 0#2) : Legal p b ↔ ¬ Na4TooFine p b :=
  ⟨fun ⟨_, hna4, _⟩ => hna4, fun hna4 => ⟨hperm, hna4, hres⟩⟩

/-- A write whose NA4 is too fine is ignored for the whole field. -/
theorem writeField_na4TooFine {p : Params} {n : Nat} {old new : Byte} (hna4 : Na4TooFine p new)
    (hold : ¬ Implemented p n → old = 0x00#8) : writeField p n old new = old := by
  obtain ⟨hn, hw⟩ | ⟨_, _, hw⟩ | ⟨_, _, _, hfine, _⟩ := writeField_cases p n old new
  · rw [hw, hold hn]
  · exact hw
  · exact absurd hna4 hfine

/-! ### Who reaches the register (40_csr_access.md R81; 30_encoding.md R61) -/

/-- An instruction completes exactly when it names this register and the access is allowed. -/
theorem exec_completes_iff (i : Instr) (s : State) :
    (∃ t, exec i s = .next t) ↔ i.csr = pmpcfg10Address ∧ MayAccess s := by
  rw [exec_is_access]
  constructor
  · rintro ⟨t, ht⟩
    obtain ⟨hcsr, hmay, _⟩ := accessCsr_next _ _ _ _ _ ht
    exact ⟨hcsr, hmay⟩
  · rintro ⟨hcsr, hmay⟩
    rw [hcsr]
    exact ⟨_, accessCsr_allowed _ _ _ _ _ hmay⟩

end Sys2Proof.Machine

namespace Sys2Proof.Proofs

open Sys2Proof.Machine

/-- Settles O8, from the read rule slice by slice and division of the position by 8. -/
theorem registerBitsAreCellBits : Obligations.RegisterBitsAreCellBits := by
  refine ⟨rfl, rfl, fun m cells k b hk hb => ⟨?_, getLsbD_csrRead hk hb cells⟩,
    fun _ _ => exists_field_bit_of_lt_len⟩
  have := inView_bound hk
  omega

/-- Settles O33: the draws are independent, and each field's outcomes are the legal bytes or 0 alone. -/
theorem resetGivesExactlyTheLegalCells : Obligations.ResetGivesExactlyTheLegalCells := fun p cells =>
  (exists_resetCells_eq_iff p cells).trans (forall_congr' fun k => exists_resetByte_eq_iff p k.entry cells[k])

/-- Settles O26: with the address and `Smpmp` given, only the mode is left of what decides completion. -/
theorem registerReachedOnlyInMachineMode : Obligations.RegisterReachedOnlyInMachineMode := by
  intro i s hcsr hsmpmp
  rw [exec_completes_iff]
  exact ⟨fun ⟨_, _, hpriv⟩ => hpriv, fun hpriv => ⟨hcsr, hsmpmp, hpriv⟩⟩

/-- Settles O49: the four names are `modeOfBits` at the four values, legality turns on NA4 alone, and an NA4 that is
too fine is ignored. -/
theorem matchingModeOfEachValueOfA : Obligations.MatchingModeOfEachValueOfA := by
  intro p n old b
  refine ⟨congrArg modeOfBits, congrArg modeOfBits, congrArg modeOfBits, congrArg modeOfBits, fun hperm hres => ?_,
    fun hgran hmode => writeField_na4TooFine ⟨hgran, hmode⟩⟩
  rw [legal_iff_not_na4TooFine hperm hres, Na4TooFine, not_and_or, not_le, modeBits]

end Sys2Proof.Proofs

/-! ## Family 20_memory: what the configuration bytes do to memory accesses -/

namespace Sys2Proof.Machine

/-! ### The verdict of the entry that counts (20_memory.md R42 to R45) -/

/-- When the checks of an entry apply (R42), with the modes named as the spec names them: M, or not M. -/
theorem checksApply_iff {b : Byte} {p : Priv} : checksApply b p = true ↔ p ≠ .machine ∨ bitL b = true := by
  cases p with
  | machine => simp [checksApply]
  | other => simp [checksApply]

/-- With `Smpmp`, the verdict on an access is the verdict of the one entry that counts. -/
theorem pmpVerdict_of_selected {s : State} {a : Access} {k : Field} (hsmpmp : s.params.smpmp = true)
    (hsel : selectedField s a = some k) : pmpVerdict s a = entryVerdict s.cfg[k] a := by
  simp [pmpVerdict, hsmpmp, hsel]

/-- An entry whose checks apply raises the Access Fault of the access's kind where the permission bit is clear. -/
theorem entryVerdict_of_denied {b : Byte} {a : Access} (happly : checksApply b a.priv = true)
    (hperm : permissionBit b a.kind = false) : entryVerdict b a = some (accessFault a.kind) := by
  simp [entryVerdict, happly, hperm]

/-- The four rows of the table of 20_memory.md section 2 at once: an access denied by the entry that counts raises the
Access Fault of its kind, in place of whatever it would have done. -/
theorem guardAccess_denied {σ : Type} {s : State} {a : Access} {k : Field} (hsmpmp : s.params.smpmp = true)
    (hsel : selectedField s a = some k) (happly : a.priv ≠ .machine ∨ bitL s.cfg[k] = true)
    (hperm : permissionBit s.cfg[k] a.kind = false) (access : Host.Outcome σ Fault Refusal) :
    guardAccess s a access = .fault (.exception (accessFault a.kind)) :=
  guardAccess_some
    ((pmpVerdict_of_selected hsmpmp hsel).trans (entryVerdict_of_denied (checksApply_iff.mpr happly) hperm)) access

/-! ### A fetch that stops (30_encoding.md R60) -/

/-- At an aligned `pc` the fetch is the four-byte read under its check. -/
theorem fetchBytes_of_aligned {s : State} (halign : fetchAddr s % 4 = 0) :
    fetchBytes s = guardAccess s (fetchAccess s) (readBytes s.mem (fetchAddr s) 4) := if_pos halign

/-- A fetch that faults ends the step with its fault. -/
theorem step_of_fetch_fault {s : State} {f : Fault} (h : fetchBytes s = .fault f) : step s = .fault f := by
  simp [step, h]

end Sys2Proof.Machine

namespace Sys2Proof.Proofs

open Sys2Proof.Machine

/-- Settles O38: each kind's clause is the denied access at that kind, whose permission bit and Access Fault are named
by the kind. -/
theorem accessFaultPerKindOfAccess : Obligations.AccessFaultPerKindOfAccess := by
  rintro s ⟨kind, priv, addr, size⟩ k access hsmpmp hsel happly
  have denied := fun hperm => guardAccess_denied hsmpmp hsel happly hperm access
  refine ⟨?fetch, ?load, ?storeOrAmo⟩
  case fetch =>
    rintro rfl hX
    exact denied hX
  case load =>
    rintro rfl hR
    exact denied hR
  case storeOrAmo =>
    rintro (rfl | rfl) hW
    · exact denied hW
    · exact denied hW

/-- Settles O37: the fetch at `pc` is an access of the fetch kind in the current mode, so its denial ends the step. -/
theorem fetchWithoutExecutePermissionFaults : Obligations.FetchWithoutExecutePermissionFaults := by
  intro s k hsmpmp halign hsel hcause hX
  have happly : (fetchAccess s).priv ≠ .machine ∨ bitL s.cfg[k] = true :=
    hcause.imp_left fun (hother : s.priv = .other) => by simp [fetchAccess, hother]
  apply step_of_fetch_fault
  rw [fetchBytes_of_aligned halign]
  exact guardAccess_denied hsmpmp hsel happly hX _

end Sys2Proof.Proofs

/-! ## Family 30_encoding: which register a word reaches -/

namespace Sys2Proof

/-! ### What a word that decodes says of its instruction (30_encoding.md R60, R61) -/

/-- Every row of the decoder takes the CSR address and the destination from the same fields of a SYSTEM word. -/
theorem decodeWord_ok {w : BitVec 32} {i : Instr} (h : decodeWord w = .ok i) :
    opcodeField w = opcodeSystem ∧ i.csr = csrField w ∧ i.rd = (rdField w).toNat := by
  unfold decodeWord at h
  split at h
  case isFalse => cases h
  case isTrue hop =>
    split_ifs at h <;> cases h <;> exact ⟨hop, rfl, rfl⟩

/-- The decoder's CSR field reads back what was packed (30_encoding.md R60). -/
@[simp] theorem csrField_packWord (csr : BitVec 12) (src : BitVec 5) (f : BitVec 3) (rd : BitVec 5) :
    csrField (packWord csr src f rd) = csr := by
  apply BitVec.eq_of_getLsbD_eq
  intro i hi
  rw [csrField, BitVec.getLsbD_extractLsb', getLsbD_packWord]
  grind

/-- With the other operands fixed, the word determines the CSR address. -/
theorem packWord_csr_inj {csr csr' : BitVec 12} {src : BitVec 5} {f : BitVec 3} {rd : BitVec 5} :
    packWord csr src f rd = packWord csr' src f rd ↔ csr = csr' :=
  ⟨fun h => by simpa using congrArg csrField h, fun h => h ▸ rfl⟩

/-- The mask of R61 keeps the CSR address and the major opcode of a SYSTEM word and clears the other operands. -/
theorem and_csrMask {w : BitVec 32} (hop : opcodeField w = opcodeSystem) :
    w &&& 0xfff0007f#32 = packWord (csrField w) 0 0 0 := by
  apply BitVec.eq_of_getLsbD_eq
  intro i hi
  rw [BitVec.getLsbD_and, getLsbD_packWord, ← hop]
  interval_cases i <;> simp [opcodeField, csrField]

/-- The match and mask of R61, for any CSR address. -/
theorem csrField_eq_iff_and_csrMask {w : BitVec 32} (hop : opcodeField w = opcodeSystem) (csr : BitVec 12) :
    csrField w = csr ↔ w &&& 0xfff0007f#32 = packWord csr 0 0 0 := by
  rw [and_csrMask hop, packWord_csr_inj]

end Sys2Proof

namespace Sys2Proof.Machine

/-! ### An access to this register, and one to another (40_csr_access.md section 3; 30_encoding.md R61) -/

/-- Whatever the cells become, the old value to a general register that exists and `pc + 4` are the frame of an
access. -/
theorem accessFrame_advancePc_writeX {rd : Nat} (hrd : RegNumber rd) (s : State) (cells : Cells) :
    AccessFrame rd s
      (advancePc s.mxl (writeX s.mxl rd (csrRead s.mxl s.cfg) { s with cfg := cells })) := by
  refine ⟨?old, by simp, ?others, ?zero, by simp, by simp, by simp, by simp, by simp, by simp⟩
  case old =>
    rw [readX_advancePc]
    split
    next h0 => rw [h0, readX_zero]
    next h0 => exact readX_writeX_same _ _ _ h0 hrd
  case others =>
    intro m n hn
    rw [readX_advancePc, readX_writeX_other _ _ _ _ hn, readX_with_cfg]
  case zero =>
    rintro rfl
    simp

/-- An allowed access to this register completes, with the frame of an access. -/
theorem exec_completes_with_frame {i : Instr} {s : State} (hcsr : i.csr = pmpcfg10Address) (hmay : MayAccess s)
    (hrd : RegNumber i.rd) : ∃ t, exec i s = .next t ∧ AccessFrame i.rd s t := by
  rw [exec_is_access, hcsr, accessCsr_allowed _ _ _ _ _ hmay]
  exact ⟨_, rfl, accessFrame_advancePc_writeX hrd s _⟩

/-- An access to another CSR stops, and neither the reason nor what decides it is about the cells. -/
theorem registerUntouched_of_csr_ne {i : Instr} (hcsr : i.csr ≠ pmpcfg10Address) (s : State) :
    RegisterUntouched i s := by
  intro cells
  rw [exec_is_access, exec_is_access, accessCsr_other _ _ _ _ _ hcsr, accessCsr_other _ _ _ _ _ hcsr]
  split <;> rfl

end Sys2Proof.Machine

namespace Sys2Proof.Proofs

open Sys2Proof.Machine

/-- Settles O4: the word fixes the instruction's CSR and a destination below 32; the address then decides between the
completed access with its frame and a stop that does not look at the cells. -/
theorem accessesRegisterExactlyByAddress : Obligations.AccessesRegisterExactlyByAddress := by
  intro w i hdec
  obtain ⟨hop, hcsr, hrd⟩ := decodeWord_ok hdec
  refine ⟨hcsr, Iff.rfl, ?mask, fun s => ⟨fun haddr hmay => ?completes, fun haddr => ?untouched⟩⟩
  case mask =>
    rw [hcsr]
    exact csrField_eq_iff_and_csrMask hop pmpcfg10Address
  case completes => exact exec_completes_with_frame (hcsr.trans haddr) hmay (hrd ▸ (rdField w).isLt)
  case untouched => exact registerUntouched_of_csr_ne (hcsr ▸ haddr) s

end Sys2Proof.Proofs

/-! ## Family 40_csr_access: the write of one field, and the six instructions on the register -/

namespace Sys2Proof.Machine

/-! ### The accepted byte (40_csr_access.md R71, last line) -/

@[simp] theorem acceptedByte_self (b : Byte) : acceptedByte b b = b := by
  apply BitVec.eq_of_getLsbD_eq
  intro i _
  rw [getLsbD_acceptedByte, ite_self]

/-- Accepting the same byte once more keeps the reserved bits that the first time kept. -/
@[simp] theorem acceptedByte_acceptedByte (old new : Byte) :
    acceptedByte (acceptedByte old new) new = acceptedByte old new := by
  apply BitVec.eq_of_getLsbD_eq
  intro i _
  simp only [getLsbD_acceptedByte]
  split <;> rfl

/-- A, X, W and R of the accepted byte are the presented ones. -/
@[simp] theorem configBits_acceptedByte (old new : Byte) :
    (acceptedByte old new).extractLsb' 0 5 = new.extractLsb' 0 5 := by
  ext i hi
  have h5 : i ≠ 5 := by omega
  have h6 : i ≠ 6 := by omega
  simp [getLsbD_acceptedByte, h5, h6]

/-- The accepted byte with the masks of its two parts: bits 6:5 from the old byte, the others from the new one. -/
theorem acceptedByte_eq_masks (old new : Byte) :
    acceptedByte old new = (new &&& 0x9f#8) ||| (old &&& 0x60#8) := by
  apply BitVec.eq_of_getLsbD_eq
  intro i hi
  rw [getLsbD_acceptedByte, BitVec.getLsbD_or, BitVec.getLsbD_and, BitVec.getLsbD_and]
  interval_cases i <;> simp

theorem legal_acceptedByte {p : Params} {old new : Byte} (hold : Legal p old) (hperm : ¬ ReservedPermission new)
    (hna4 : ¬ Na4TooFine p new) : Legal p (acceptedByte old new) := by
  obtain ⟨_, _, hres⟩ := hold
  refine ⟨?_, ?_, ?_⟩
  · simpa using hperm
  · simpa using hna4
  · simpa using hres

/-! ### The write of one field, clause by clause (40_csr_access.md R71, R74) -/

theorem writeField_unimplemented {p : Params} {n : Nat} (hn : ¬ Implemented p n) (old new : Byte) :
    writeField p n old new = 0x00#8 := if_pos hn

/-- The two reasons an implemented field keeps its byte: its lock, and a presented byte that is not allowed. -/
theorem writeField_kept {p : Params} {n : Nat} {old new : Byte} (hn : Implemented p n)
    (hkeep : bitL old = true ∨ ReservedPermission new ∨ Na4TooFine p new) : writeField p n old new = old := by
  obtain ⟨hn', _⟩ | ⟨_, _, hw⟩ | ⟨_, hlock, hperm, hna4, _⟩ := writeField_cases p n old new
  · exact absurd hn hn'
  · exact hw
  · simp [hlock, hperm, hna4] at hkeep

theorem writeField_accepted {p : Params} {n : Nat} {old new : Byte} (hn : Implemented p n) (hlock : bitL old = false)
    (hperm : ¬ ReservedPermission new) (hna4 : ¬ Na4TooFine p new) :
    writeField p n old new = acceptedByte old new := by
  obtain ⟨hn', _⟩ | ⟨_, hkeep, _⟩ | ⟨_, _, _, _, hw⟩ := writeField_cases p n old new
  · exact absurd hn hn'
  · simp [hlock, hperm, hna4] at hkeep
  · exact hw

/-- R83 (a), one field. -/
theorem writeField_self {p : Params} {n : Nat} {old : Byte} (hold : ¬ Implemented p n → old = 0x00#8) :
    writeField p n old old = old := by
  obtain ⟨hn, hw⟩ | ⟨_, _, hw⟩ | ⟨_, _, _, _, hw⟩ := writeField_cases p n old old
  · rw [hw, hold hn]
  · exact hw
  · rw [hw, acceptedByte_self]

/-- R83 (b), one field: the second write is rejected, or is accepted as the first was. -/
theorem writeField_idempotent (p : Params) (n : Nat) (old new : Byte) :
    writeField p n (writeField p n old new) new = writeField p n old new := by
  obtain ⟨hn, hw⟩ | ⟨_, _, hw⟩ | ⟨hn, _, _, _, hw⟩ := writeField_cases p n old new
  · rw [hw, writeField_unimplemented hn]
  · rw [hw, hw]
  · rw [hw]
    obtain ⟨hn', _⟩ | ⟨_, _, hw'⟩ | ⟨_, _, _, _, hw'⟩ := writeField_cases p n (acceptedByte old new) new
    · exact absurd hn hn'
    · exact hw'
    · rw [hw', acceptedByte_acceptedByte]

/-- R83 (c). -/
theorem legal_writeField {p : Params} {old : Byte} (hold : Legal p old) (n : Nat) (new : Byte) :
    Legal p (writeField p n old new) := by
  obtain ⟨_, hw⟩ | ⟨_, _, hw⟩ | ⟨_, _, hperm, hna4, hw⟩ := writeField_cases p n old new
  · rw [hw]; exact legal_zero p
  · rwa [hw]
  · rw [hw]; exact legal_acceptedByte hold hperm hna4

/-- R83 (a), the whole register. -/
theorem csrWrite_csrRead {p : Params} {cells : Cells} (hlegal : CellsLegal p cells) (m : Mxl) :
    csrWrite p m (csrRead m cells) cells = cells := by
  refine cells_ext fun k => ?_
  rw [csrWrite_getElem]
  split
  next hview => rw [slice_csrRead hview, writeField_self (hlegal k).2]
  next => rfl

/-! ### The source's write function (40_csr_access.md R71, the verbatim text) -/

/-- A mask of one bit tests that bit. -/
theorem and_twoPow_eq_zero_iff (b : Byte) {i : Nat} (hi : i < 8) :
    b &&& BitVec.twoPow 8 i = 0#8 ↔ b.getLsbD i = false := by
  have hne : BitVec.twoPow 8 i ≠ 0#8 := fun h => by simpa [hi] using congrArg (BitVec.getLsbD · i) h
  rw [BitVec.and_twoPow]
  cases b.getLsbD i <;> simp [hne]

theorem and_twoPow_eq_twoPow_iff (b : Byte) {i : Nat} (hi : i < 8) :
    b &&& BitVec.twoPow 8 i = BitVec.twoPow 8 i ↔ b.getLsbD i = true := by
  have hne : 0#8 ≠ BitVec.twoPow 8 i := fun h => by simpa [hi] using congrArg (BitVec.getLsbD · i) h
  rw [BitVec.and_twoPow]
  cases b.getLsbD i <;> simp [hne]

theorem and_lockMask (b : Byte) : b &&& 0x80#8 = 0 ↔ bitL b = false :=
  and_twoPow_eq_zero_iff b (i := 7) (by decide)

theorem and_readMask (b : Byte) : b &&& 0x1#8 = 0 ↔ bitR b = false :=
  and_twoPow_eq_zero_iff b (i := 0) (by decide)

theorem and_writeMask (b : Byte) : b &&& 0x2#8 = 0x2#8 ↔ bitW b = true :=
  and_twoPow_eq_twoPow_iff b (i := 1) (by decide)

/-- The mask of A keeps the mode bits at their place. -/
theorem and_modeMask (b : Byte) : b &&& 0x18#8 = (modeBits b).setWidth 8 <<< 3 := by
  apply BitVec.eq_of_getLsbD_eq
  intro i hi
  rw [BitVec.getLsbD_and]
  interval_cases i <;> simp [modeBits]

theorem and_modeMask_eq_na4 (b : Byte) : b &&& 0x18#8 = 0x10#8 ↔ modeBits b = 2#2 := by
  rw [and_modeMask]
  generalize modeBits b = a
  revert a
  decide

/-- The source's function with its masks read as the conditions of R71. -/
theorem sourceWrite_eq (p : Params) (old new : Byte) :
    sourceWrite p.pmpGranularity old new =
      if bitL old = true ∨ ReservedPermission new ∨ Na4TooFine p new then old else new := by
  have hreserved : (new &&& 0x1#8 = 0 ∧ new &&& 0x2#8 = 0x2#8) ↔ ReservedPermission new :=
    and_congr (and_readMask new) (and_writeMask new)
  have hmode : (p.pmpGranularity < 2 ∨ new &&& 0x18#8 ≠ 0x10#8) ↔ ¬ Na4TooFine p new := by
    rw [Na4TooFine, not_and_or, not_le, ne_eq, and_modeMask_eq_na4]
  simp only [sourceWrite, and_lockMask, hreserved, hmode]
  cases hlock : bitL old with
  | true => simp
  | false =>
    by_cases hperm : ReservedPermission new
    · simp [hperm]
    · by_cases hna4 : Na4TooFine p new
      · simp [hna4]
      · simp [hperm, hna4]

/-- `WriteField` on an implemented entry accepts, reserved bits apart, what the source's function answers. -/
theorem writeField_eq_accept_sourceWrite {p : Params} {n : Nat} (hn : Implemented p n) (old new : Byte) :
    writeField p n old new = acceptedByte old (sourceWrite p.pmpGranularity old new) := by
  rw [sourceWrite_eq]
  split
  next hkeep => rw [writeField_kept hn hkeep, acceptedByte_self]
  next haccept =>
    simp only [not_or] at haccept
    obtain ⟨hlock, hperm, hna4⟩ := haccept
    exact writeField_accepted hn (by simpa using hlock) hperm hna4

end Sys2Proof.Machine

namespace Sys2Proof

/-! ### The words of the six forms (30_encoding.md R60; 40_csr_access.md R75 to R80) -/

/-- A packed word is the word without its two operands, with each operand at its place. -/
theorem packWord_eq_or (csr : BitVec 12) (src : BitVec 5) (f : BitVec 3) (rd : BitVec 5) :
    packWord csr src f rd = packWord csr 0 f 0 ||| (src.setWidth 32 <<< 15) ||| (rd.setWidth 32 <<< 7) := by
  apply BitVec.eq_of_getLsbD_eq
  intro i hi
  rw [BitVec.getLsbD_or, BitVec.getLsbD_or, getLsbD_packWord, getLsbD_packWord]
  interval_cases i <;> simp

/-- The five bits of a register number that exists hold it. -/
theorem setWidth_regNumber {r : Nat} (hr : RegNumber r) : (BitVec.ofNat 5 r).setWidth 32 = BitVec.ofNat 32 r :=
  BitVec.setWidth_ofNat_of_le_of_lt (by decide) hr

/-- The word of a register form. -/
theorem packWord_register {rd rs1 : Nat} (hrd : RegNumber rd) (hrs1 : RegNumber rs1) (csr : BitVec 12)
    (f : BitVec 3) :
    packWord csr (BitVec.ofNat 5 rs1) f (BitVec.ofNat 5 rd) =
      packWord csr 0 f 0 ||| (BitVec.ofNat 32 rs1 <<< 15) ||| (BitVec.ofNat 32 rd <<< 7) := by
  rw [packWord_eq_or, setWidth_regNumber hrd, setWidth_regNumber hrs1]

/-- The word of an immediate form. -/
theorem packWord_immediate {rd : Nat} (hrd : RegNumber rd) (csr : BitVec 12) (uimm : BitVec 5) (f : BitVec 3) :
    packWord csr uimm f (BitVec.ofNat 5 rd) =
      packWord csr 0 f 0 ||| (uimm.setWidth 32 <<< 15) ||| (BitVec.ofNat 32 rd <<< 7) := by
  rw [packWord_eq_or, setWidth_regNumber hrd]

end Sys2Proof

namespace Sys2Proof.Machine

/-! ### What an access presents to each field (40_csr_access.md sections 3 and 4) -/

/-- The slice of the zero-extended immediate at a field. -/
def immediateByte (uimm : BitVec 5) (k : Field) : Byte := if k = 0 then uimm.setWidth 8 else 0x00#8

@[simp] theorem immediateByte_zero (uimm : BitVec 5) : immediateByte uimm 0 = uimm.setWidth 8 := rfl

theorem immediateByte_of_ne {k : Field} (hk : k ≠ 0) (uimm : BitVec 5) : immediateByte uimm k = 0x00#8 :=
  if_neg hk

/-- Setting the bits of the immediate concerns field 40 alone. -/
theorem or_immediateByte (old : Byte) (uimm : BitVec 5) (k : Field) :
    old ||| immediateByte uimm k = if k = 0 then old ||| uimm.setWidth 8 else old := by
  split
  next h40 => rw [h40, immediateByte_zero]
  next hother => rw [immediateByte_of_ne hother, BitVec.or_zero]

/-- Clearing the bits of the immediate concerns field 40 alone. -/
theorem and_not_immediateByte (old : Byte) (uimm : BitVec 5) (k : Field) :
    old &&& ~~~ immediateByte uimm k = if k = 0 then old &&& ~~~ (uimm.setWidth 8) else old := by
  split
  next h40 => rw [h40, immediateByte_zero]
  next hother => rw [immediateByte_of_ne hother, BitVec.not_zero, BitVec.and_allOnes]

/-- The byte an instruction presents to field `k`, from the old cell and the slices of the general registers at `k`;
`slice_presented` ties it to the whole value presented. -/
def presentedByte (i : Instr) (k : Field) (x : Nat → Byte) (old : Byte) : Byte :=
  match i with
  | .csrrw _ _ rs1 => x rs1
  | .csrrs _ _ rs1 => old ||| x rs1
  | .csrrc _ _ rs1 => old &&& ~~~ x rs1
  | .csrrwi _ _ uimm => immediateByte uimm k
  | .csrrsi _ _ uimm => old ||| immediateByte uimm k
  | .csrrci _ _ uimm => old &&& ~~~ immediateByte uimm k

theorem slice_immediateOperand (m : Mxl) (uimm : BitVec 5) (k : Field) :
    slice (immediateOperand m uimm) k = immediateByte uimm k := slice_immediate m uimm k

/-- The whole value an instruction presents, seen field by field: no field's slice looks at another field. -/
theorem slice_presented {m : Mxl} {k : Field} (hview : InView m k) (i : Instr) (x : Nat → BitVec m.len)
    (cells : Cells) :
    slice (presented i m x (csrRead m cells)) k = presentedByte i k (fun n => slice (x n) k) cells[k] := by
  cases i with
  | csrrw => rfl
  | csrrs => simp only [presented, presentedByte, slice_or, slice_csrRead hview]
  | csrrc => simp only [presented, presentedByte, slice_and, slice_not _ _ (inView_bound hview), slice_csrRead hview]
  | csrrwi => exact slice_immediateOperand _ _ _
  | csrrsi => simp only [presented, presentedByte, slice_or, slice_csrRead hview, slice_immediateOperand]
  | csrrci =>
    simp only [presented, presentedByte, slice_and, slice_not _ _ (inView_bound hview), slice_csrRead hview,
      slice_immediateOperand]

/-! ### The access of any of the six instructions to this register -/

/-- The cell of field `k` after an instruction has completed its access; `exec_allowed` ties it to `exec`. -/
def cellAfter (i : Instr) (s : State) (k : Field) : Byte :=
  if i.writes = true ∧ InView s.mxl k then
    writeField s.params k.entry s.cfg[k] (presentedByte i k (fun n => slice (readX s.mxl n s) k) s.cfg[k])
  else s.cfg[k]

/-- A field that is presented its own legal byte keeps it. -/
theorem cellAfter_of_presentedByte_eq {i : Instr} {s : State} {k : Field} (hlegal : CellsLegal s.params s.cfg)
    (hown : presentedByte i k (fun n => slice (readX s.mxl n s) k) s.cfg[k] = s.cfg[k]) :
    cellAfter i s k = s.cfg[k] := by
  rw [cellAfter, hown, writeField_self (hlegal k).2, ite_self]

/-- Without access, every instruction on this register faults with its own word (R81). -/
theorem exec_denied {i : Instr} {s : State} (hcsr : i.csr = pmpcfg10Address) (hmay : ¬ MayAccess s) :
    exec i s = .fault (.exception (.illegalInstruction (encode i))) := by
  rw [exec_is_access, hcsr, accessCsr_refused _ _ _ _ _ hmay]

/-- With access, every instruction on this register completes with the frame of an access and each cell after it. -/
theorem exec_allowed {i : Instr} {s : State} (hcsr : i.csr = pmpcfg10Address) (hrd : RegNumber i.rd)
    (hmay : MayAccess s) :
    ∃ t, exec i s = .next t ∧ AccessFrame i.rd s t ∧ ∀ k : Field, t.cfg[k] = cellAfter i s k := by
  rw [exec_is_access, hcsr, accessCsr_allowed _ _ _ _ _ hmay]
  refine ⟨_, rfl, accessFrame_advancePc_writeX hrd s _, fun k => ?_⟩
  rw [advancePc_cfg, writeX_cfg, cellAfter]
  cases i.writes with
  | false => simp
  | true =>
    by_cases hview : InView s.mxl k
    · rw [if_pos rfl, csrWrite_getElem, if_pos hview, slice_presented hview, if_pos ⟨rfl, hview⟩]
    · rw [if_pos rfl, csrWrite_getElem, if_neg hview, if_neg fun h => hview h.2]

/-- What R75 to R80 say of one instruction, from its word and what its access leaves in each cell. -/
theorem exec_contract {i : Instr} {s : State} {word : BitVec 32} {cell : Field → Byte}
    (hcsr : i.csr = pmpcfg10Address) (hrd : RegNumber i.rd) (hword : encode i = word)
    (hcell : ∀ k : Field, cellAfter i s k = cell k) :
    encode i = word ∧
    (¬ MayAccess s → exec i s = .fault (.exception (.illegalInstruction word))) ∧
    (MayAccess s → ∃ t, exec i s = .next t ∧ AccessFrame i.rd s t ∧ ∀ k : Field, t.cfg[k] = cell k) := by
  refine ⟨hword, fun hmay => hword ▸ exec_denied hcsr hmay, fun hmay => ?_⟩
  obtain ⟨t, hexec, hframe, hcells⟩ := exec_allowed hcsr hrd hmay
  exact ⟨t, hexec, hframe, fun k => (hcells k).trans (hcell k)⟩

/-- The same of an instruction that presents its own byte to every field but 40: on legal cells only field 40 can
change. -/
theorem exec_contract_only_field40 {i : Instr} {s : State} {word : BitVec 32} {cell : Field → Byte}
    (hcsr : i.csr = pmpcfg10Address) (hrd : RegNumber i.rd) (hword : encode i = word)
    (hcell : ∀ k : Field, cellAfter i s k = cell k)
    (hown : ∀ k : Field, k ≠ 0 → ∀ x old, presentedByte i k x old = old) :
    encode i = word ∧
    (¬ MayAccess s → exec i s = .fault (.exception (.illegalInstruction word))) ∧
    (MayAccess s → ∃ t, exec i s = .next t ∧ AccessFrame i.rd s t ∧ (∀ k : Field, t.cfg[k] = cell k) ∧
      (CellsLegal s.params s.cfg → ∀ k : Field, k ≠ 0 → t.cfg[k] = s.cfg[k])) := by
  obtain ⟨hencode, hdenied, hallowed⟩ := exec_contract hcsr hrd hword hcell
  refine ⟨hencode, hdenied, fun hmay => ?_⟩
  obtain ⟨t, hexec, hframe, hcells⟩ := hallowed hmay
  refine ⟨t, hexec, hframe, hcells, fun hlegal k hk => ?_⟩
  calc t.cfg[k] = cell k := hcells k
    _ = cellAfter i s k := (hcell k).symm
    _ = s.cfg[k] := cellAfter_of_presentedByte_eq hlegal (hown k hk _ _)

end Sys2Proof.Machine

namespace Sys2Proof.Proofs

open Sys2Proof.Machine

/-- Settles O10: the source's answer, accepted but for the reserved bits, whose masks are those of the statement. -/
theorem writeFieldIsSourceFunctionButReservedBits : Obligations.WriteFieldIsSourceFunctionButReservedBits := by
  intro p n old new
  rw [← acceptedByte_eq_masks]
  split
  next hn => exact writeField_unimplemented (not_lt.mpr hn) old new
  next hn => exact writeField_eq_accept_sourceWrite (not_le.mp hn) old new

/-- Settles O11: each part is a law of `WriteField`, or of `CsrWrite` taken field by field. -/
theorem writeProperties : Obligations.WriteProperties := by
  refine ⟨fun _ _ _ => writeField_self, fun _ m _ hlegal => csrWrite_csrRead hlegal m, writeField_idempotent,
    fun _ _ old new hn => writeField_unimplemented hn old new, fun _ n _ new _ hold => legal_writeField hold n new,
    fun _ _ _ _ hn hlock => writeField_kept hn (.inl hlock), ?locality⟩
  intro p m m' v v' cells cells' k hview hview' hcell hslice
  rw [csrWrite_getElem, csrWrite_getElem, if_pos hview, if_pos hview', hcell, hslice]

/-- Settles O13: a kept byte, or the accepted one, whose sub-fields are those of the two bytes it is made of. -/
theorem lockAndRejectionCornerCases : Obligations.LockAndRejectionCornerCases := by
  intro p n old new hn
  refine ⟨fun hlock => writeField_kept hn (.inl hlock), fun hreject => writeField_kept hn (.inr hreject),
    fun hlock hperm hna4 => ?_⟩
  rw [writeField_accepted hn hlock hperm hna4]
  exact ⟨bitL_acceptedByte old new, configBits_acceptedByte old new, reservedBits_acceptedByte old new⟩

/-- Settles O25: all six forms are one access, which the mode and `Smpmp` alone allow or deny. -/
theorem accessCheckDecidesEveryForm : Obligations.AccessCheckDecidesEveryForm := fun i s hcsr =>
  ⟨exec_denied hcsr, fun hmay => (exec_completes_iff i s).mpr ⟨hcsr, hmay⟩⟩

/-- Settles O18: `csrrw` always writes, and presents the slices of `x[rs1]`. -/
theorem csrrwSwapsRegisterAndCsr : Obligations.CsrrwSwapsRegisterAndCsr := by
  intro s rd rs1 ⟨hrd, hrs1⟩
  refine exec_contract rfl hrd (packWord_register hrd hrs1 _ _) fun k => ?_
  simp [cellAfter, Instr.writes, presentedByte]

/-- Settles O19: `csrrs` writes unless `rs1` is register 0, and presents each cell OR its slice of `x[rs1]`. -/
theorem csrrsReadsAndSetsBits : Obligations.CsrrsReadsAndSetsBits := by
  intro s rd rs1 ⟨hrd, hrs1⟩
  refine exec_contract rfl hrd (packWord_register hrd hrs1 _ _) fun k => ?_
  simp [cellAfter, Instr.writes, presentedByte]

/-- Settles O20: `csrrc` writes unless `rs1` is register 0, and presents each cell AND NOT its slice of `x[rs1]`. -/
theorem csrrcReadsAndClearsBits : Obligations.CsrrcReadsAndClearsBits := by
  intro s rd rs1 ⟨hrd, hrs1⟩
  refine exec_contract rfl hrd (packWord_register hrd hrs1 _ _) fun k => ?_
  simp [cellAfter, Instr.writes, presentedByte]

/-- Settles O21: `csrrwi` always writes, and presents the slices of the zero-extended immediate. -/
theorem csrrwiWritesImmediate : Obligations.CsrrwiWritesImmediate := by
  intro s rd uimm hrd
  refine exec_contract rfl hrd (packWord_immediate hrd _ _ _) fun k => ?_
  simp [cellAfter, Instr.writes, presentedByte, immediateByte]

/-- Settles O22: outside field 40 the immediate sets no bit, so each other field is presented its own byte. -/
theorem csrrsiSetsImmediateBits : Obligations.CsrrsiSetsImmediateBits := by
  intro s rd uimm hrd
  refine exec_contract_only_field40 rfl hrd (packWord_immediate hrd _ _ _) (fun k => ?cell) (fun k hk _ old => ?own)
  case cell => simp [cellAfter, Instr.writes, presentedByte, or_immediateByte]
  case own => exact (or_immediateByte old uimm k).trans (if_neg hk)

/-- Settles O23: outside field 40 the immediate clears no bit, so each other field is presented its own byte. -/
theorem csrrciClearsImmediateBits : Obligations.CsrrciClearsImmediateBits := by
  intro s rd uimm hrd
  refine exec_contract_only_field40 rfl hrd (packWord_immediate hrd _ _ _) (fun k => ?cell) (fun k hk _ old => ?own)
  case cell => simp [cellAfter, Instr.writes, presentedByte, and_not_immediateByte]
  case own => exact (and_not_immediateByte old uimm k).trans (if_neg hk)

end Sys2Proof.Proofs

/-! ## Family 60_exceptions: the cause codes of the machine that comes out of reset -/

namespace Sys2Proof

/-- The defaults that 60_exceptions.md R91 prints are the codes of this machine. -/
@[simp] theorem Config.params_codes : Config.params.codes =
    { insnAccessFault := 1, illegalInsn := 2, loadAccessFault := 5, storeAmoAccessFault := 7 } := rfl

end Sys2Proof

namespace Sys2Proof.Machine

@[simp] theorem State.reset_params : State.reset.params = Config.params := rfl

end Sys2Proof.Machine

namespace Sys2Proof.Proofs

open Sys2Proof.Machine

/-- Settles O47: reset takes the parameters of this machine, whose codes are R91's defaults, and `excCode` reads each
exception's own one, whatever word an illegal instruction carries. -/
theorem defaultCauseCodes : Obligations.DefaultCauseCodes := by
  intro w
  rw [State.reset_params, Config.params_codes]
  exact ⟨rfl, rfl, rfl, rfl⟩

end Sys2Proof.Proofs

/-! ## Family other, encoding: the decoder and the encoder are inverse (30_encoding.md sections 1, 3 and 6) -/

namespace Sys2Proof

/-! ### The fields of a packed word, and a word packed from its fields (30_encoding.md R60) -/

@[simp] theorem opcodeField_packWord (csr : BitVec 12) (src : BitVec 5) (f : BitVec 3) (rd : BitVec 5) :
    opcodeField (packWord csr src f rd) = opcodeSystem := by
  apply BitVec.eq_of_getLsbD_eq
  intro i hi
  rw [opcodeField, BitVec.getLsbD_extractLsb', getLsbD_packWord]
  grind

@[simp] theorem rdField_packWord (csr : BitVec 12) (src : BitVec 5) (f : BitVec 3) (rd : BitVec 5) :
    rdField (packWord csr src f rd) = rd := by
  apply BitVec.eq_of_getLsbD_eq
  intro i hi
  rw [rdField, BitVec.getLsbD_extractLsb', getLsbD_packWord]
  grind

@[simp] theorem funct3Field_packWord (csr : BitVec 12) (src : BitVec 5) (f : BitVec 3) (rd : BitVec 5) :
    funct3Field (packWord csr src f rd) = f := by
  apply BitVec.eq_of_getLsbD_eq
  intro i hi
  rw [funct3Field, BitVec.getLsbD_extractLsb', getLsbD_packWord]
  grind

@[simp] theorem srcField_packWord (csr : BitVec 12) (src : BitVec 5) (f : BitVec 3) (rd : BitVec 5) :
    srcField (packWord csr src f rd) = src := by
  apply BitVec.eq_of_getLsbD_eq
  intro i hi
  rw [srcField, BitVec.getLsbD_extractLsb', getLsbD_packWord]
  grind

/-- The four operand fields and the opcode are all of a word. -/
theorem packWord_fields {w : BitVec 32} (hop : opcodeField w = opcodeSystem) :
    packWord (csrField w) (srcField w) (funct3Field w) (rdField w) = w := by
  apply BitVec.eq_of_getLsbD_eq
  intro i hi
  rw [getLsbD_packWord, ← hop]
  simp only [opcodeField, rdField, funct3Field, srcField, csrField, BitVec.getLsbD_extractLsb']
  grind

/-! ### The match and mask columns (30_encoding.md R63) -/

/-- The mask of R63 keeps the major opcode. -/
@[simp] theorem opcodeField_and_rowMask (w : BitVec 32) : opcodeField (w &&& 0x0000707f#32) = opcodeField w := by
  apply BitVec.eq_of_getLsbD_eq
  intro i hi
  simp only [opcodeField, BitVec.getLsbD_extractLsb', BitVec.getLsbD_and]
  interval_cases i <;> simp

/-- The mask of R63 keeps `funct3`. -/
@[simp] theorem funct3Field_and_rowMask (w : BitVec 32) : funct3Field (w &&& 0x0000707f#32) = funct3Field w := by
  apply BitVec.eq_of_getLsbD_eq
  intro i hi
  simp only [funct3Field, BitVec.getLsbD_extractLsb', BitVec.getLsbD_and]
  interval_cases i <;> simp

/-- A row's match under the mask says the major opcode and the row's `funct3`, and nothing else. -/
theorem and_rowMask_eq_iff (w : BitVec 32) (f : BitVec 3) :
    w &&& 0x0000707f#32 = (f.setWidth 32 <<< 12) ||| 0x73#32 ↔
      opcodeField w = opcodeSystem ∧ funct3Field w = f := by
  rw [← packWord_and_mask 0 0 f 0]
  constructor
  · intro h
    exact ⟨by simpa using congrArg opcodeField h, by simpa using congrArg funct3Field h⟩
  · rintro ⟨hop, rfl⟩
    rw [← packWord_fields hop, packWord_and_mask, packWord_and_mask, funct3Field_packWord]

/-- Every encoding has its row's match under the mask. -/
theorem encode_and_rowMask (i : Instr) : encode i &&& 0x0000707f#32 = Laws.rowMatch i := by
  cases i with
  | csrrw => exact Laws.FixedBits.csrrw _ _ _
  | csrrs => exact Laws.FixedBits.csrrs _ _ _
  | csrrc => exact Laws.FixedBits.csrrc _ _ _
  | csrrwi => exact Laws.FixedBits.csrrwi _ _ _
  | csrrsi => exact Laws.FixedBits.csrrsi _ _ _
  | csrrci => exact Laws.FixedBits.csrrci _ _ _

/-! ### The decoder, row by row (30_encoding.md sections 1 and 3) -/

section Rows

variable {w : BitVec 32}

theorem decodeWord_otherOpcode (hop : opcodeField w ≠ opcodeSystem) : decodeWord w = .error .otherOpcode :=
  if_neg hop

theorem decodeWord_notCsrAccess (hop : opcodeField w = opcodeSystem) (hf : funct3Field w = 0#3 ∨ funct3Field w = 4#3) :
    decodeWord w = .error .notCsrAccess := by
  rcases hf with hf | hf
  · simp [decodeWord, hop, hf]
  · simp [decodeWord, hop, hf]

theorem decodeWord_csrrw (hop : opcodeField w = opcodeSystem) (hf : funct3Field w = 1#3) :
    decodeWord w = .ok (.csrrw (rdField w).toNat (csrField w) (srcField w).toNat) := by
  simp [decodeWord, hop, hf]

theorem decodeWord_csrrs (hop : opcodeField w = opcodeSystem) (hf : funct3Field w = 2#3) :
    decodeWord w = .ok (.csrrs (rdField w).toNat (csrField w) (srcField w).toNat) := by
  simp [decodeWord, hop, hf]

theorem decodeWord_csrrc (hop : opcodeField w = opcodeSystem) (hf : funct3Field w = 3#3) :
    decodeWord w = .ok (.csrrc (rdField w).toNat (csrField w) (srcField w).toNat) := by
  simp [decodeWord, hop, hf]

theorem decodeWord_csrrwi (hop : opcodeField w = opcodeSystem) (hf : funct3Field w = 5#3) :
    decodeWord w = .ok (.csrrwi (rdField w).toNat (csrField w) (srcField w)) := by
  simp [decodeWord, hop, hf]

theorem decodeWord_csrrsi (hop : opcodeField w = opcodeSystem) (hf : funct3Field w = 6#3) :
    decodeWord w = .ok (.csrrsi (rdField w).toNat (csrField w) (srcField w)) := by
  simp [decodeWord, hop, hf]

theorem decodeWord_csrrci (hop : opcodeField w = opcodeSystem) (hf : funct3Field w = 7#3) :
    decodeWord w = .ok (.csrrci (rdField w).toNat (csrField w) (srcField w)) := by
  simp [decodeWord, hop, hf]

end Rows

/-! ### There and back (30_encoding.md sections 1 and 3) -/

/-- Each form's word has the form's `funct3`, so its own row decodes it, and the row's fields are the operands. -/
theorem decodeWord_encode {i : Instr} (hi : WellFormed i) : decodeWord (encode i) = .ok i := by
  cases i with
  | csrrw rd csr rs1 =>
    obtain ⟨hrd, hrs1⟩ := hi
    simp [encode, decodeWord_csrrw, Nat.mod_eq_of_lt hrd, Nat.mod_eq_of_lt hrs1]
  | csrrs rd csr rs1 =>
    obtain ⟨hrd, hrs1⟩ := hi
    simp [encode, decodeWord_csrrs, Nat.mod_eq_of_lt hrd, Nat.mod_eq_of_lt hrs1]
  | csrrc rd csr rs1 =>
    obtain ⟨hrd, hrs1⟩ := hi
    simp [encode, decodeWord_csrrc, Nat.mod_eq_of_lt hrd, Nat.mod_eq_of_lt hrs1]
  | csrrwi rd csr uimm => simp [encode, decodeWord_csrrwi, Nat.mod_eq_of_lt hi]
  | csrrsi rd csr uimm => simp [encode, decodeWord_csrrsi, Nat.mod_eq_of_lt hi]
  | csrrci rd csr uimm => simp [encode, decodeWord_csrrci, Nat.mod_eq_of_lt hi]

/-- A row that decodes a word packs the word's own fields again. -/
theorem encode_of_decodeWord {w : BitVec 32} {i : Instr} (h : decodeWord w = .ok i) : encode i = w := by
  obtain ⟨hop, _⟩ := decodeWord_ok h
  have hpack := packWord_fields hop
  rw [decodeWord, if_pos hop] at h
  split_ifs at h with hf hf hf hf hf hf
  all_goals
    cases h
    rw [hf] at hpack
    simpa [encode] using hpack

/-- The operands of a decoded instruction are five-bit fields. -/
theorem wellFormed_of_decodeWord {w : BitVec 32} {i : Instr} (h : decodeWord w = .ok i) : WellFormed i := by
  rw [decodeWord] at h
  split_ifs at h <;> cases h
  · exact ⟨(rdField w).isLt, (srcField w).isLt⟩
  · exact ⟨(rdField w).isLt, (srcField w).isLt⟩
  · exact ⟨(rdField w).isLt, (srcField w).isLt⟩
  · exact (rdField w).isLt
  · exact (rdField w).isLt
  · exact (rdField w).isLt

/-- The word of a decoded instruction has the match of the instruction's row. -/
theorem and_rowMask_of_decodeWord {w : BitVec 32} {i : Instr} (h : decodeWord w = .ok i) :
    w &&& 0x0000707f#32 = Laws.rowMatch i := by
  rw [← encode_and_rowMask, encode_of_decodeWord h]

/-- Little-endian order there and back (30_encoding.md R60). -/
theorem wordOfBytes_bytesOfWord (w : BitVec 32) :
    wordOfBytes (w.extractLsb' 0 8) (w.extractLsb' 8 8) (w.extractLsb' 16 8) (w.extractLsb' 24 8) = w := by
  apply BitVec.eq_of_getLsbD_eq
  intro i hi
  rw [wordOfBytes]
  grind

theorem decodeBytes_bytesOfWord (w : BitVec 32) : decodeBytes (bytesOfWord w) = decodeWord w :=
  congrArg decodeWord (wordOfBytes_bytesOfWord w)

theorem decodeBytes_encodeBytes {i : Instr} (hi : WellFormed i) : decodeBytes (encodeBytes i) = .ok i :=
  (decodeBytes_bytesOfWord (encode i)).trans (decodeWord_encode hi)

end Sys2Proof

namespace Sys2Proof.Proofs

/-- Settles O1: the bytes give the word back, and each form's row gives its operands back. -/
theorem decodeOfEncodeGivesInstructionBack : Obligations.DecodeOfEncodeGivesInstructionBack :=
  fun _ => decodeBytes_encodeBytes

/-- Settles O2: a row packs the fields it has read, and those are five bits wide. -/
theorem encodeOfDecodeGivesWordBack : Obligations.EncodeOfDecodeGivesWordBack :=
  fun _ _ h => ⟨encode_of_decodeWord h, wellFormed_of_decodeWord h⟩

/-- Settles O3: a decoded instruction's encoding is the word, which so has the row's fixed bits; and the fixed bits are
the opcode and the `funct3` that select the row. -/
theorem decodingFollowsMatchAndMask : Obligations.DecodingFollowsMatchAndMask := by
  intro w
  refine ⟨⟨?_, fun h => ?csrrw⟩, ⟨?_, fun h => ?csrrs⟩, ⟨?_, fun h => ?csrrc⟩, ⟨?_, fun h => ?csrrwi⟩,
    ⟨?_, fun h => ?csrrsi⟩, ⟨?_, fun h => ?csrrci⟩⟩
  case csrrw =>
    obtain ⟨hop, hf⟩ := (and_rowMask_eq_iff w 1#3).mp h
    exact ⟨_, _, _, decodeWord_csrrw hop hf⟩
  case csrrs =>
    obtain ⟨hop, hf⟩ := (and_rowMask_eq_iff w 2#3).mp h
    exact ⟨_, _, _, decodeWord_csrrs hop hf⟩
  case csrrc =>
    obtain ⟨hop, hf⟩ := (and_rowMask_eq_iff w 3#3).mp h
    exact ⟨_, _, _, decodeWord_csrrc hop hf⟩
  case csrrwi =>
    obtain ⟨hop, hf⟩ := (and_rowMask_eq_iff w 5#3).mp h
    exact ⟨_, _, _, decodeWord_csrrwi hop hf⟩
  case csrrsi =>
    obtain ⟨hop, hf⟩ := (and_rowMask_eq_iff w 6#3).mp h
    exact ⟨_, _, _, decodeWord_csrrsi hop hf⟩
  case csrrci =>
    obtain ⟨hop, hf⟩ := (and_rowMask_eq_iff w 7#3).mp h
    exact ⟨_, _, _, decodeWord_csrrci hop hf⟩
  all_goals
    rintro ⟨_, _, _, h⟩
    exact and_rowMask_of_decodeWord h

/-- Settles O7: each word is the row's fixed bits with the one free operand at its place; the other operand is 0. -/
theorem pseudoInstructionEncodings : Obligations.PseudoInstructionEncodings := by
  intro r u hr
  have zero : RegNumber 0 := by decide
  refine ⟨(packWord_register hr zero _ _).trans ?_, (packWord_register zero hr _ _).trans ?_,
    (packWord_register zero hr _ _).trans ?_, (packWord_register zero hr _ _).trans ?_,
    (packWord_immediate zero _ u _).trans ?_, (packWord_immediate zero _ u _).trans ?_,
    (packWord_immediate zero _ u _).trans ?_⟩
  all_goals simp [packWord, opcodeSystem]

/-- Settles O5: each of the six words is the encoding of the instruction printed beside it. -/
theorem exampleWordsDecode : Obligations.ExampleWordsDecode :=
  ⟨decodeWord_encode (i := .csrrw 6 0x3aa#12 5) (by decide),
    decodeWord_encode (i := .csrrs 5 0x3aa#12 6) (by decide),
    decodeWord_encode (i := .csrrc 11 0x3aa#12 12) (by decide),
    decodeWord_encode (i := .csrrwi 0 0x3aa#12 0x1f#5) (by decide),
    decodeWord_encode (i := .csrrsi 13 0x3aa#12 4#5) (by decide),
    decodeWord_encode (i := .csrrci 9 0x3aa#12 3#5) (by decide)⟩

/-- Settles O6: the rows of the decoder are the six values of `funct3` other than 0 and 4. -/
theorem decodesExactlyTheSixForms : Obligations.DecodesExactlyTheSixForms := by
  intro w
  refine ⟨decodeWord_otherOpcode, fun ⟨hop, hf⟩ => decodeWord_notCsrAccess hop hf, fun ⟨hop, h0, h4⟩ => ?_⟩
  have hrow : ∀ f : BitVec 3, f ≠ 0#3 → f ≠ 4#3 → f = 1#3 ∨ f = 2#3 ∨ f = 3#3 ∨ f = 5#3 ∨ f = 6#3 ∨ f = 7#3 := by
    decide
  obtain hf | hf | hf | hf | hf | hf := hrow _ h0 h4
  · exact ⟨_, decodeWord_csrrw hop hf⟩
  · exact ⟨_, decodeWord_csrrs hop hf⟩
  · exact ⟨_, decodeWord_csrrc hop hf⟩
  · exact ⟨_, decodeWord_csrrwi hop hf⟩
  · exact ⟨_, decodeWord_csrrsi hop hf⟩
  · exact ⟨_, decodeWord_csrrci hop hf⟩

end Sys2Proof.Proofs

/-! ## Family other, cells: the register as software reads and writes it (10_state.md section 4; 40_csr_access.md) -/

namespace Sys2Proof.Machine

/-! ### The write of one field of the register (40_csr_access.md R72) -/

theorem csrWrite_inView {m : Mxl} {k : Field} (hview : InView m k) (p : Params) (v : BitVec m.len) (cells : Cells) :
    (csrWrite p m v cells)[k] = writeField p k.entry cells[k] (slice v k) :=
  (csrWrite_getElem p m v cells k).trans (if_pos hview)

theorem csrWrite_not_inView {m : Mxl} {k : Field} (hview : ¬ InView m k) (p : Params) (v : BitVec m.len)
    (cells : Cells) : (csrWrite p m v cells)[k] = cells[k] :=
  (csrWrite_getElem p m v cells k).trans (if_neg hview)

/-- A cell in view depends on its own slice of the value alone. -/
theorem csrWrite_of_slice_eq {p : Params} {m : Mxl} {v : BitVec m.len} {cells : Cells} {k : Field}
    (hlegal : CellsLegal p cells) (hown : InView m k → slice v k = cells[k]) :
    (csrWrite p m v cells)[k] = cells[k] := by
  by_cases hview : InView m k
  · rw [csrWrite_inView hview, hown hview, writeField_self (hlegal k).2]
  · exact csrWrite_not_inView hview p v cells

/-- R27 over a software write of the register. -/
theorem cellsLegal_csrWrite {p : Params} {cells : Cells} (hlegal : CellsLegal p cells) (m : Mxl) (v : BitVec m.len) :
    CellsLegal p (csrWrite p m v cells) := by
  intro k
  obtain ⟨hold, hzero⟩ := hlegal k
  by_cases hview : InView m k
  · rw [csrWrite_inView hview]
    exact ⟨legal_writeField hold k.entry _, fun hn => writeField_unimplemented hn _ _⟩
  · rw [csrWrite_not_inView hview]
    exact ⟨hold, hzero⟩

/-- R27 right after a reset. -/
theorem cellsLegal_resetCells (p : Params) (draw : Nat → Byte) : CellsLegal p (resetCells p draw) := by
  intro k
  rw [resetCells_getElem]
  exact ⟨legal_resetByte p k.entry _, fun hn => resetByte_unimplemented hn _⟩

/-- A locked field of legal cells keeps its byte over every write: it is implemented, since an unimplemented one
holds 0, which is not locked. -/
theorem csrWrite_locked {p : Params} {cells : Cells} {k : Field} (hlegal : CellsLegal p cells)
    (hlock : bitL cells[k] = true) (m : Mxl) (v : BitVec m.len) : (csrWrite p m v cells)[k] = cells[k] := by
  have hn : Implemented p k.entry := by
    by_contra hn
    rw [(hlegal k).2 hn] at hlock
    exact absurd hlock (by decide)
  by_cases hview : InView m k
  · rw [csrWrite_inView hview, writeField_kept hn (.inl hlock)]
  · exact csrWrite_not_inView hview p v cells

/-- With the same reserved bits, the accepted byte is the presented one. -/
theorem acceptedByte_of_reservedBits_eq {old new : Byte} (h : reservedBits old = reservedBits new) :
    acceptedByte old new = new := by
  have hbit : ∀ i, i < 2 → old.getLsbD (5 + i) = new.getLsbD (5 + i) := fun i hi => by
    simpa [reservedBits, hi] using congrArg (BitVec.getLsbD · i) h
  apply BitVec.eq_of_getLsbD_eq
  intro i _
  rw [getLsbD_acceptedByte]
  split
  next hres =>
    obtain rfl | rfl := hres
    · exact hbit 0 (by decide)
    · exact hbit 1 (by decide)
  next => rfl

/-- A legal byte presented to an unlocked legal field is stored as it is where the entry is implemented. -/
theorem writeField_legal {p : Params} {n : Nat} {old new : Byte} (hold : Legal p old) (hlock : bitL old = false)
    (hnew : Legal p new) : writeField p n old new = if Implemented p n then new else 0x00#8 := by
  obtain ⟨_, _, hres⟩ := hold
  obtain ⟨hperm, hna4, hres'⟩ := hnew
  split
  next hn =>
    rw [writeField_accepted hn hlock hperm hna4, acceptedByte_of_reservedBits_eq (hres.trans hres'.symm)]
  next hn => exact writeField_unimplemented hn old new

/-! ### Legality on each side of the granularity's comparison (10_state.md R19, R22) -/

theorem legal_iff_of_granularity_lt {p : Params} (hgran : p.pmpGranularity < 2) (b : Byte) :
    Legal p b ↔ ¬ ReservedPermission b ∧ reservedBits b = 0#2 :=
  ⟨fun ⟨hperm, _, hres⟩ => ⟨hperm, hres⟩,
    fun ⟨hperm, hres⟩ => ⟨hperm, fun ⟨hfine, _⟩ => absurd hgran (not_lt.mpr hfine), hres⟩⟩

theorem legal_iff_of_le_granularity {p : Params} (hgran : 2 ≤ p.pmpGranularity) (b : Byte) :
    Legal p b ↔ ¬ ReservedPermission b ∧ modeBits b ≠ 2#2 ∧ reservedBits b = 0#2 := by
  rw [Legal, Na4TooFine, and_iff_right hgran]

/-- How many of the 256 bytes have a property. -/
def byteCount (P : Byte → Prop) [DecidablePred P] : Nat :=
  ((List.range 256).filter fun n => decide (P (BitVec.ofNat 8 n))).length

theorem byteCount_congr {P Q : Byte → Prop} [DecidablePred P] [DecidablePred Q] (h : ∀ b, P b ↔ Q b) :
    byteCount P = byteCount Q :=
  congrArg List.length (List.filter_congr fun _ _ => decide_eq_decide.mpr (h _))

/-- Two values of L, four of A, six of X, W and R. -/
theorem byteCount_no_reserved : byteCount (fun b => ¬ ReservedPermission b ∧ reservedBits b = 0#2) = 48 := by
  decide

/-- Two values of L, three of A, six of X, W and R. -/
theorem byteCount_no_reserved_no_na4 :
    byteCount (fun b => ¬ ReservedPermission b ∧ modeBits b ≠ 2#2 ∧ reservedBits b = 0#2) = 36 := by
  decide

/-! ### One field of a value replaced (40_csr_access.md section 6) -/

/-- A byte shifted to field `k` lies in the slice of field `k` and in no other. -/
theorem slice_shiftLeft_byte {w : Nat} (c : Byte) {j : Field} (hj : 8 * j.val + 8 ≤ w) (k : Field) :
    slice (c.setWidth w <<< (8 * k.val)) j = if j = k then c else 0x00#8 := by
  apply BitVec.eq_of_getLsbD_eq
  intro i hi
  have hbit : 8 * j.val + i < w := by omega
  split
  next hjk =>
    subst hjk
    simp [slice, hi, hbit]
  next hjk =>
    have hval : j.val ≠ k.val := Fin.val_ne_of_ne hjk
    simp only [slice, BitVec.getLsbD_extractLsb', BitVec.getLsbD_shiftLeft, BitVec.getLsbD_setWidth]
    have houtside : 8 * j.val + i < 8 * k.val ∨ 8 ≤ 8 * j.val + i - 8 * k.val := by omega
    obtain hbelow | habove := houtside
    · simp [hbelow]
    · simp [BitVec.getLsbD_of_ge c _ habove]

/-- The value of section 6: `old` with field `k` cleared and the byte `c` put in its place. -/
def replaceField {w : Nat} (old : BitVec w) (k : Field) (c : Byte) : BitVec w :=
  (old &&& ~~~ ((0xff#8).setWidth w <<< (8 * k.val))) ||| (c.setWidth w <<< (8 * k.val))

theorem slice_replaceField {w : Nat} (old : BitVec w) {j : Field} (hj : 8 * j.val + 8 ≤ w) (k : Field) (c : Byte) :
    slice (replaceField old k c) j = if j = k then c else slice old j := by
  rw [replaceField, slice_or, slice_and, slice_not _ _ hj, slice_shiftLeft_byte _ hj, slice_shiftLeft_byte _ hj]
  split
  next => rw [show ~~~ 0xff#8 = 0#8 from rfl, BitVec.and_zero, BitVec.zero_or]
  next => rw [BitVec.not_zero, BitVec.and_allOnes, BitVec.or_zero]

end Sys2Proof.Machine

namespace Sys2Proof.Proofs

open Sys2Proof.Machine

/-- Settles O12: each field's write is idempotent, and a field outside the register is not written. -/
theorem registerWriteIsIdempotent : Obligations.RegisterWriteIsIdempotent := by
  intro p m v cells
  refine cells_ext fun k => ?_
  by_cases hview : InView m k
  · simp only [csrWrite_inView hview, writeField_idempotent]
  · simp only [csrWrite_not_inView hview]

/-- Settles O14: legality looks at the granularity only through its comparison with 2, and each side of that comparison
leaves a condition on the byte alone, whose 256 cases are counted. -/
theorem legalByteCount : Obligations.LegalByteCount := by
  intro p
  change byteCount (Legal p) = _
  split
  next hlt => rw [byteCount_congr (legal_iff_of_granularity_lt hlt), byteCount_no_reserved]
  next hge => rw [byteCount_congr (legal_iff_of_le_granularity (not_lt.mp hge)), byteCount_no_reserved_no_na4]

/-- Settles O15: a legal byte is accepted with its reserved bits, which are 0 in the old byte as well. -/
theorem readBackShowsImplementedEntries : Obligations.ReadBackShowsImplementedEntries := by
  intro p m v cells k hlegal hview hlock hnew
  rw [slice_csrRead hview, csrWrite_inView hview, writeField_legal (hlegal k).1 hlock hnew]

/-- Settles O16: field `k` is presented `c`, and every other field in view its own legal byte. -/
theorem replacingOneFieldLeavesTheOthers : Obligations.ReplacingOneFieldLeavesTheOthers := by
  intro p m cells k c hlegal hview
  change (csrWrite p m (replaceField (csrRead m cells) k c) cells)[k] = _ ∧
    ∀ j : Field, j ≠ k → (csrWrite p m (replaceField (csrRead m cells) k c) cells)[j] = cells[j]
  refine ⟨?_, fun j hj => csrWrite_of_slice_eq hlegal fun hview' => ?_⟩
  · rw [csrWrite_inView hview, slice_replaceField _ (inView_bound hview), if_pos rfl]
  · rw [slice_replaceField _ (inView_bound hview'), if_neg hj, slice_csrRead hview']

/-- Settles O9: the two clauses are the two branches of the write of one field. -/
theorem writeUpdatesEachFieldAlone : Obligations.WriteUpdatesEachFieldAlone := fun p _ v cells _ =>
  ⟨fun hview => csrWrite_inView hview p v cells, fun hview => csrWrite_not_inView hview p v cells⟩

/-- Settles O17: what is read at a field in view is its cell, which is legal. -/
theorem reservedAndUnimplementedReadZero : Obligations.ReservedAndUnimplementedReadZero := by
  intro p m cells k hlegal hview
  obtain ⟨⟨_, _, hres⟩, hzero⟩ := hlegal k
  rw [slice_csrRead hview]
  exact ⟨hres, hzero⟩

end Sys2Proof.Proofs

/-! ## Family other, instructions: what an instruction that completes has done (40_csr_access.md sections 1, 3 and 4) -/

namespace Sys2Proof.Machine

/-! ### Inversion of `exec` -/

/-- The cells an instruction leaves when it completes; `exec_next` ties it to `exec`. -/
def cellsAfter (i : Instr) (s : State) : Cells :=
  if i.writes then
    csrWrite s.params s.mxl (presented i s.mxl (fun n => readX s.mxl n s) (csrRead s.mxl s.cfg)) s.cfg
  else s.cfg

/-- Everything an instruction that answers a next state has done, for all six forms at once. -/
theorem exec_next {i : Instr} {s t : State} (h : exec i s = .next t) :
    i.csr = pmpcfg10Address ∧ MayAccess s ∧
    t = advancePc s.mxl (writeX s.mxl i.rd (csrRead s.mxl s.cfg) { s with cfg := cellsAfter i s }) := by
  rw [exec_is_access] at h
  exact accessCsr_next _ _ _ _ _ h

/-- The other direction: where the access is allowed, an instruction on this register answers that state. -/
theorem exec_of_mayAccess {i : Instr} {s : State} (hcsr : i.csr = pmpcfg10Address) (hmay : MayAccess s) :
    exec i s =
      .next (advancePc s.mxl (writeX s.mxl i.rd (csrRead s.mxl s.cfg) { s with cfg := cellsAfter i s })) := by
  rw [exec_is_access, hcsr]
  exact accessCsr_allowed _ _ _ _ _ hmay

theorem exec_next_cfg {i : Instr} {s t : State} (h : exec i s = .next t) : t.cfg = cellsAfter i s := by
  obtain ⟨_, _, rfl⟩ := exec_next h
  simp

theorem exec_next_pc {i : Instr} {s t : State} (h : exec i s = .next t) :
    t.pc = writeXWord s.mxl (readXWord s.mxl s.pc + 4) (Config.freeUpperPc s.tick) := by
  obtain ⟨_, _, rfl⟩ := exec_next h
  simp

/-- What no instruction changes. -/
theorem exec_next_frame {i : Instr} {s t : State} (h : exec i s = .next t) :
    t.priv = s.priv ∧ t.mxl = s.mxl ∧ t.params = s.params ∧ t.mem = s.mem ∧ t.env = s.env ∧ t.tick = s.tick := by
  obtain ⟨_, _, rfl⟩ := exec_next h
  simp

/-! ### The cells an instruction leaves -/

theorem cellsAfter_not_writes {i : Instr} (hw : i.writes = false) (s : State) : cellsAfter i s = s.cfg := by
  simp [cellsAfter, hw]

/-- The cell of a field after an instruction, with the slice of the whole value presented. -/
theorem cellAfter_eq_presented (i : Instr) (s : State) (k : Field) :
    cellAfter i s k =
      if i.writes = true ∧ InView s.mxl k then
        writeField s.params k.entry s.cfg[k]
          (slice (presented i s.mxl (fun n => readX s.mxl n s) (csrRead s.mxl s.cfg)) k)
      else s.cfg[k] := by
  rw [cellAfter]
  split
  next h => rw [slice_presented h.2]
  next => rfl

/-- Field by field the cells are those of `cellAfter`. -/
theorem cellsAfter_getElem (i : Instr) (s : State) (k : Field) : (cellsAfter i s)[k] = cellAfter i s k := by
  rw [cellAfter_eq_presented, cellsAfter, ite_and]
  split
  · exact csrWrite_getElem _ _ _ _ _
  · rfl

theorem exec_next_cell {i : Instr} {s t : State} (h : exec i s = .next t) (k : Field) :
    t.cfg[k] = cellAfter i s k := by
  rw [exec_next_cfg h, cellsAfter_getElem]

theorem cellAfter_not_inView {s : State} {k : Field} (hview : ¬ InView s.mxl k) (i : Instr) :
    cellAfter i s k = s.cfg[k] := if_neg fun h => hview h.2

/-- R27 over an instruction. -/
theorem cellsLegal_cellsAfter {s : State} (hlegal : CellsLegal s.params s.cfg) (i : Instr) :
    CellsLegal s.params (cellsAfter i s) := by
  unfold cellsAfter
  split
  · exact cellsLegal_csrWrite hlegal _ _
  · exact hlegal

/-- The lock over an instruction (10_state.md R17). -/
theorem cellsAfter_locked {s : State} {k : Field} (hlegal : CellsLegal s.params s.cfg) (hlock : Locked s k)
    (i : Instr) : (cellsAfter i s)[k] = s.cfg[k] := by
  unfold cellsAfter
  split
  · exact csrWrite_locked hlegal hlock _ _
  · rfl

theorem slice_zero {w : Nat} (k : Field) : slice (0 : BitVec w) k = 0x00#8 := by
  ext i hi
  simp [slice]

/-! ### Cells outside the view (10_state.md section 3) -/

/-- The register's value is its fields in view and nothing else. -/
theorem csrRead_congr {m : Mxl} {cells cells' : Cells} (h : ∀ k : Field, InView m k → cells'[k] = cells[k]) :
    csrRead m cells' = csrRead m cells := by
  apply BitVec.eq_of_getLsbD_eq
  intro j hj
  obtain ⟨k, b, hview, hb, rfl⟩ := exists_field_bit_of_lt_len hj
  rw [getLsbD_csrRead hview hb, getLsbD_csrRead hview hb, h k hview]

/-- A field's cell after an instruction depends on no other cell. -/
theorem cellAfter_congr {i : Instr} {s : State} {cells : Cells} {k : Field} (hcell : cells[k] = s.cfg[k]) :
    cellAfter i { s with cfg := cells } k = cellAfter i s k := by
  simp only [cellAfter, hcell]
  rfl

theorem writeX_with_cfg (m : Mxl) (n : Nat) (v : BitVec m.len) (s : State) (cells : Cells) :
    writeX m n v { s with cfg := cells } = { writeX m n v s with cfg := cells } := by
  unfold writeX
  split <;> rfl

/-- An instruction that completes does so from all cells that look the same through the register, with the same next
state but for the cells. -/
theorem exec_of_sameInView {i : Instr} {s t : State} {cells : Cells} (h : exec i s = .next t)
    (hsame : ∀ k : Field, InView s.mxl k → cells[k] = s.cfg[k]) :
    exec i { s with cfg := cells } = .next { t with cfg := cellsAfter i { s with cfg := cells } } := by
  obtain ⟨hcsr, hmay, rfl⟩ := exec_next h
  refine (exec_of_mayAccess (s := { s with cfg := cells }) hcsr hmay).trans ?_
  simp only [csrRead_congr hsame, writeX_with_cfg]
  rfl

/-! ### An access to another CSR (30_encoding.md R64) -/

theorem illegalByAddress_iff (csr : BitVec 12) (writes : Bool) (p : Priv) :
    illegalByAddress csr writes p = true ↔
      (csr.extractLsb' 8 2 = 3#2 ∧ p = .other) ∨ (csr.extractLsb' 10 2 = 3#2 ∧ writes = true) := by
  simp [illegalByAddress, csrMachineOnly, csrReadOnly]

/-! ### A 32-bit result seen at 64 bits (assumption 8) -/

/-- The register written under a length is the written word, seen under any length. -/
theorem readX_writeX_word (m m' : Mxl) {n : Nat} (v : BitVec m.len) (s : State) (h0 : n ≠ 0) (hn : n < 32) :
    readX m' n (writeX m n v s) = readXWord m' (writeXWord m v (Config.freeUpperX s.tick)) := by
  simp [readX, writeX, h0, hn]

end Sys2Proof.Machine

namespace Sys2Proof.Proofs

open Sys2Proof.Machine

/-- Settles O36: the register's value, and so what the instruction does, is that of the fields in view; each cell
depends on its own field alone, and a field outside the view is not written. -/
theorem hiddenCellsNeitherShownNorChanged : Obligations.HiddenCellsNeitherShownNorChanged := by
  rintro i s s' t ⟨hs', hsame⟩ h
  obtain ⟨cells, rfl⟩ : ∃ cells, s' = { s with cfg := cells } := ⟨_, hs'⟩
  obtain ⟨_, hmxl, _⟩ := exec_next_frame h
  have h' := exec_of_sameInView h hsame
  refine ⟨_, h', ⟨rfl, fun k hview => ?same⟩, fun k hview => ?kept⟩
  case same =>
    rw [hmxl] at hview
    rw [exec_next_cell h, exec_next_cell h', cellAfter_congr (hsame k hview)]
  case kept =>
    rw [exec_next_cell h, exec_next_cell h']
    exact ⟨cellAfter_not_inView hview i, cellAfter_not_inView (s := { s with cfg := cells }) hview i⟩

/-- Settles O24: with a zero operand value each field is presented its own byte. -/
theorem zeroOperandSetAndClearChangeNothing : Obligations.ZeroOperandSetAndClearChangeNothing := by
  rintro s t rd rs1 hlegal hzero (h | h)
  · refine cells_ext fun k => (exec_next_cell h k).trans (cellAfter_of_presentedByte_eq hlegal ?_)
    rw [presentedByte, hzero, slice_zero, BitVec.or_zero]
  · refine cells_ext fun k => (exec_next_cell h k).trans (cellAfter_of_presentedByte_eq hlegal ?_)
    rw [presentedByte, hzero, slice_zero, BitVec.not_zero, BitVec.and_allOnes]

/-- Settles O27: the second instruction reads the cells the first has left, under the same length. -/
theorem nextReadReturnsWhatTheWriteStored : Obligations.NextReadReturnsWhatTheWriteStored := by
  intro s t u rd rs1 r hwrite h0 hr hread k hview
  obtain ⟨_, hmxl, _⟩ := exec_next_frame hwrite
  obtain ⟨_, _, hu⟩ := exec_next hread
  have hreg : readX t.mxl r u = csrRead t.mxl t.cfg := by
    rw [hu, readX_advancePc]
    exact readX_writeX_same _ _ _ h0 hr
  rw [hmxl] at hreg
  calc slice (readX s.mxl r u) k = t.cfg[k] := by rw [hreg, slice_csrRead hview]
    _ = cellAfter (.csrrw rd 0x3aa#12 rs1) s k := exec_next_cell hwrite k
    _ = writeField s.params k.entry s.cfg[k] (slice (readX s.mxl rs1 s) k) := if_pos ⟨rfl, hview⟩

/-- Settles O28: the access stops, for the reason that the two tests of its address and mode give. -/
theorem otherCsrAccessStops : Obligations.OtherCsrAccessStops := by
  intro i s hcsr
  rw [exec_is_access, accessCsr_other _ _ _ _ _ hcsr]
  simp only [illegalByAddress_iff]

/-- Settles O29, bit by bit of the one address. -/
theorem registerAddressRights : Obligations.RegisterAddressRights := by
  unfold Obligations.RegisterAddressRights
  decide

/-- Settles O30: the one write of the destination leaves the old value below the upper half of a 32-bit write. -/
theorem narrowResultSeenWide : Obligations.NarrowResultSeenWide := by
  intro s t i hmxl h0 hrd h
  obtain ⟨_, _, rfl⟩ := exec_next h
  rw [readX_advancePc, readX_writeX_word _ _ _ _ h0 hrd, hmxl]
  rfl

end Sys2Proof.Proofs

/-! ## Family other, memory accesses: the verdict of the entry that counts (20_memory.md sections 2 and 5) -/

namespace Sys2Proof.Machine

/-! ### Selection and verdict -/

/-- An entry raises only the Access Fault of the access's kind, and only when its checks apply and the bit is clear. -/
theorem entryVerdict_eq_some {b : Byte} {a : Access} {e : Exception} (h : entryVerdict b a = some e) :
    e = accessFault a.kind ∧ checksApply b a.priv = true ∧ permissionBit b a.kind = false := by
  unfold entryVerdict at h
  split at h
  next hdenied =>
    rw [Bool.and_eq_true, Bool.not_eq_true'] at hdenied
    exact ⟨(Option.some.inj h).symm, hdenied⟩
  next => cases h

/-- Only a matching entry is picked (assumption 17). -/
theorem pmpMatches_of_selected {s : State} {a : Access} {k : Field} (h : selectedField s a = some k) :
    pmpMatches s.params k.entry (matchMode s.cfg[k]) a = true :=
  (List.mem_filter.mp (selectedField_mem h)).2

/-- OFF matches nothing (20_memory.md R46). -/
theorem pmpMatches_off (p : Params) (n : Nat) (a : Access) : pmpMatches p n .off a = false := by
  simp [pmpMatches]

theorem modeBits_ne_zero_of_selected {s : State} {a : Access} {k : Field} (h : selectedField s a = some k) :
    modeBits s.cfg[k] ≠ 0#2 := by
  intro hoff
  have hmatch := pmpMatches_of_selected h
  have hmode : matchMode s.cfg[k] = .off := congrArg modeOfBits hoff
  rw [hmode, pmpMatches_off] at hmatch
  cases hmatch

/-- A legal byte with W set has R set (10_state.md R21). -/
theorem bitR_of_bitW {p : Params} {b : Byte} (hlegal : Legal p b) (hW : bitW b = true) : bitR b = true := by
  obtain ⟨hperm, _⟩ := hlegal
  by_contra hR
  exact hperm ⟨by simpa using hR, hW⟩

end Sys2Proof.Machine

namespace Sys2Proof.Proofs

open Sys2Proof.Machine

/-- Settles O40: the picked entry matches under its own mode; OFF matches nothing, and 0, the byte of an unimplemented
entry, is OFF. -/
theorem offEntryMatchesNothing : Obligations.OffEntryMatchesNothing := by
  intro s a k hsel
  have hmatch := pmpMatches_of_selected hsel
  have hmode := modeBits_ne_zero_of_selected hsel
  have named : ∀ {bits : BitVec 2} {mode : AMode}, modeOfBits bits = mode → modeBits s.cfg[k] = bits →
      pmpMatches s.params k.entry mode a = true := by
    rintro _ _ rfl rfl
    exact hmatch
  refine ⟨hmode, hmatch, named rfl, named rfl, named rfl, fun hlegal => ?_⟩
  by_contra hn
  rw [(hlegal k).2 hn] at hmode
  exact hmode rfl

/-- Settles O41: the AMO passes because the checks do not apply, or because W is set, which on a legal byte takes R. -/
theorem amoPassingWriteTestPassesReadTest : Obligations.AmoPassingWriteTestPassesReadTest := by
  rintro s k ⟨kind, priv, addr, size⟩ hlegal rfl hpass
  rw [entryVerdict_eq_none] at hpass ⊢
  exact fun happly => bitR_of_bitW (hlegal k).1 (hpass happly)

/-- Settles O39: what raises the fault is the entry that counts, and an entry faults in M-mode only if locked. -/
theorem noAccessFaultWithoutCause : Obligations.NoAccessFaultWithoutCause := by
  intro s a e h
  obtain ⟨_, k, hsel, hverdict⟩ := pmpVerdict_some h
  obtain ⟨he, happly, hperm⟩ := entryVerdict_eq_some hverdict
  exact ⟨k, hsel, he, fun hm => (checksApply_iff.mp happly).resolve_left (not_not.mpr hm), hperm⟩

/-- Settles O42: the check reads the cell as the instruction left it. -/
theorem writeGovernsTheNextAccess : Obligations.WriteGovernsTheNextAccess := by
  intro i s t k a _ h hsel
  obtain ⟨_, ⟨hsmpmp, _⟩, _⟩ := exec_next h
  obtain ⟨_, _, hparams, _⟩ := exec_next_frame h
  rw [pmpVerdict_of_selected (hparams ▸ hsmpmp) hsel, exec_next_cell h, cellAfter_eq_presented]

end Sys2Proof.Proofs

/-! ## Family other, steps and runs: the fetch, the environment's events, and what every step keeps -/

namespace Sys2Proof.Machine

/-! ### A step by its fetch and its instruction (30_encoding.md section 1) -/

theorem step_misaligned {s : State} (h : fetchAddr s % 4 ≠ 0) : step s = .refused (.misalignedPc (fetchAddr s)) := by
  simp [step, fetchBytes, h]

section Fetched

variable {s : State} {bytes : List Byte} (hfetch : fetchBytes s = .next bytes)

include hfetch

theorem step_notDecoded {why : DecodeError} (hdec : decodeBytes bytes = .error why) :
    step s = .refused (.notDecoded why (wordOfFetched bytes)) := by
  simp [step, hfetch, hdec]

variable {i : Instr} (hdec : decodeBytes bytes = .ok i)

include hdec

theorem step_of_exec_next {t : State} (h : exec i s = .next t) : step s = .next (endStep t) := by
  simp [step, hfetch, hdec, h]

theorem step_of_exec_fault {f : Fault} (h : exec i s = .fault f) : step s = .fault f := by
  simp [step, hfetch, hdec, h]

theorem step_of_exec_refused {r : Refusal} (h : exec i s = .refused r) : step s = .refused r := by
  simp [step, hfetch, hdec, h]

end Fetched

/-! ### A word placed at `pc` (30_encoding.md R60; assumption 21) -/

/-- Bytes placed at consecutive addresses are read back. -/
theorem readBytes_writeBytes (bs : List Byte) (mem : Memory) (a : Nat) :
    readBytes (writeBytes mem a bs) a bs.length = .next bs := by
  induction bs generalizing mem a with
  | nil => rfl
  | cons b bs ih =>
    have hhead : readByte (writeBytes (writeByte mem a b) (a + 1) bs) a = some b := by
      rw [readByte_writeBytes_outside _ _ _ _ (.inl (Nat.lt_succ_self a)), readByte_writeByte_same]
    simp [readBytes, writeBytes, hhead, ih]

theorem tableWord_toNat (w : BitVec 32) : tableWord 32 w.toNat = w := by
  rw [tableWord, Nat.mod_eq_of_lt w.isLt, BitVec.ofNat_toNat, BitVec.setWidth_eq]

/-- Memory after an instruction's word is placed at `pc`. -/
theorem withFetchWord_mem (s : State) (i : Instr) :
    (s.withFetchWord 32 (encode i).toNat).mem = writeBytes s.mem (fetchAddr s) (encodeBytes i) := by
  rw [State.withFetchWord, tableWord_toNat]
  rfl

@[simp] theorem fetchAddr_withFetchWord (s : State) (nbits w : Nat) :
    fetchAddr (s.withFetchWord nbits w) = fetchAddr s := rfl

@[simp] theorem fetchAccess_withFetchWord (s : State) (nbits w : Nat) :
    fetchAccess (s.withFetchWord nbits w) = fetchAccess s := rfl

/-- The check of an access does not look at memory. -/
@[simp] theorem pmpVerdict_withFetchWord (s : State) (nbits w : Nat) (a : Access) :
    pmpVerdict (s.withFetchWord nbits w) a = pmpVerdict s a := rfl

theorem fetchBytes_withFetchWord {s : State} (i : Instr) (halign : fetchAddr s % 4 = 0)
    (hpass : pmpVerdict s (fetchAccess s) = none) :
    fetchBytes (s.withFetchWord 32 (encode i).toNat) = .next (encodeBytes i) := by
  rw [fetchBytes_of_aligned (by simpa using halign), guardAccess_none (by simpa using hpass), withFetchWord_mem]
  exact readBytes_writeBytes (encodeBytes i) s.mem (fetchAddr s)

theorem decodeTableWord_encode {i : Instr} (hi : WellFormed i) : decodeTableWord 32 (encode i).toNat = some i := by
  rw [decodeTableWord, tableWord_toNat, decodeBytes_bytesOfWord, decodeWord_encode hi]

/-! ### Alignment of `pc` (30_encoding.md R60) -/

theorem lo_writeXWord (m : Mxl) (v : BitVec m.len) (free : BitVec 32) : (writeXWord m v free).lo = v.setWidth 32 := by
  cases m with
  | zero => exact (BitVec.setWidth_eq v).symm
  | one => exact (BitVec.setWidth_eq_extractLsb' (by decide)).symm

theorem setWidth_readXWord (m : Mxl) (r : XWord) : (readXWord m r).setWidth 32 = r.lo := by
  cases m with
  | zero => exact BitVec.setWidth_eq r.lo
  | one => exact BitVec.setWidth_append_eq_right 

/-- Below bit 32, `pc + 4` is the same at both lengths. -/
theorem lo_advancePc (m : Mxl) (s : State) : (advancePc m s).pc.lo = s.pc.lo + 4#32 := by
  rw [advancePc_pc, lo_writeXWord, BitVec.setWidth_add _ _ (by cases m <;> decide), setWidth_readXWord]
  cases m <;> rfl

theorem pcAligned_advancePc {m : Mxl} {s : State} (h : PcAligned s) : PcAligned (advancePc m s) := by
  have htwo : ∀ v : BitVec 32, v.extractLsb' 0 2 = v.setWidth 2 := fun v =>
    (BitVec.setWidth_eq_extractLsb' (by decide)).symm
  rw [PcAligned, htwo] at h ⊢
  rw [lo_advancePc, BitVec.setWidth_add _ _ (by decide), h]
  rfl

/-! ### The invariant over a step (10_state.md R27; 30_encoding.md R60) -/

theorem inv_exec_next {i : Instr} {s t : State} (hinv : Inv s) (h : exec i s = .next t) : Inv t := by
  obtain ⟨hlegal, hwf, haligned⟩ := hinv
  obtain ⟨_, _, hparams, hmem, _⟩ := exec_next_frame h
  refine ⟨?cells, hmem ▸ hwf, ?pc⟩
  case cells =>
    rw [hparams, exec_next_cfg h]
    exact cellsLegal_cellsAfter hlegal i
  case pc =>
    rw [PcAligned, exec_next_pc h]
    exact pcAligned_advancePc haligned

theorem inv_resetTransition {s : State} (hwf : s.mem.wf) : Inv (resetTransition s) :=
  ⟨cellsLegal_resetCells _ _, hwf, rfl⟩

/-- A change of `mxl` or of mode leaves all that the invariant speaks of; a reset establishes it anew. -/
theorem inv_endStep {s : State} (hinv : Inv s) : Inv (endStep s) := by
  have hevent : Inv (applyEvent (nextEvent s) s) := by
    obtain ⟨hlegal, hwf, haligned⟩ := hinv
    cases nextEvent s with
    | hold => exact ⟨hlegal, hwf, haligned⟩
    | setMxl => exact ⟨hlegal, hwf, haligned⟩
    | setPriv => exact ⟨hlegal, hwf, haligned⟩
    | reset => exact inv_resetTransition hwf
  exact hevent

theorem inv_step {s t : State} (hinv : Inv s) (h : step s = .next t) : Inv t := by
  obtain ⟨_, _, _, _, _, hexec, rfl⟩ := step_next h
  exact inv_endStep (inv_exec_next hinv hexec)

/-! ### What a step leaves unchanged -/

theorem params_step {s t : State} (h : step s = .next t) : t.params = s.params := by
  obtain ⟨_, _, u, _, _, hexec, rfl⟩ := step_next h
  obtain ⟨_, _, hparams, _⟩ := exec_next_frame hexec
  rw [endStep_params, hparams]

theorem env_step {s t : State} (h : step s = .next t) : t.env = s.env.tail := by
  obtain ⟨_, _, u, _, _, hexec, rfl⟩ := step_next h
  obtain ⟨_, _, _, _, henv, _⟩ := exec_next_frame hexec
  rw [endStep_env, henv]

/-- Unless a reset follows it, a step leaves the cells that its instruction leaves. -/
theorem step_next_cells {s t : State} (h : step s = .next t) (hevent : nextEvent s ≠ .reset) :
    ∃ bytes i u, fetchBytes s = .next bytes ∧ decodeBytes bytes = .ok i ∧ exec i s = .next u ∧
      t.cfg = cellsAfter i s := by
  obtain ⟨bytes, i, u, hfetch, hdec, hexec, rfl⟩ := step_next h
  obtain ⟨_, _, _, _, henv, _⟩ := exec_next_frame hexec
  have hevent' : nextEvent u ≠ .reset := by rwa [nextEvent, henv]
  exact ⟨bytes, i, u, hfetch, hdec, hexec, by rw [endStep_cfg, applyEvent_cfg u _ hevent', exec_next_cfg hexec]⟩

theorem nextEvent_ne_reset {s : State} (h : NoResetAhead s) : nextEvent s ≠ .reset := by
  rw [nextEvent]
  cases henv : s.env with
  | nil => simp
  | cons e rest => exact h e (henv ▸ List.mem_cons_self)

theorem noResetAhead_step {s t : State} (hahead : NoResetAhead s) (h : step s = .next t) : NoResetAhead t := by
  intro e he
  rw [env_step h] at he
  exact hahead e (List.mem_of_mem_tail he)

theorem locked_cell_step {s t : State} {k : Field} (hinv : Inv s) (hahead : NoResetAhead s) (hlock : Locked s k)
    (h : step s = .next t) : t.cfg[k] = s.cfg[k] := by
  obtain ⟨hlegal, _⟩ := hinv
  obtain ⟨_, i, _, _, _, _, hcells⟩ := step_next_cells h (nextEvent_ne_reset hahead)
  rw [hcells, cellsAfter_locked hlegal hlock]

/-! ### Runs -/

/-- What every step keeps, every run keeps. -/
theorem run_keeps {P : State → Prop} (hstep : ∀ {s t : State}, P s → step s = .next t → P t) {n : Nat} {s t : State}
    (hs : P s) (h : Sys2Proof.core.run n s = .next t) : P t := by
  induction n generalizing s with
  | zero => rwa [run_zero_next h]
  | succ n ih =>
    obtain ⟨u, hu, hrun⟩ := run_succ_next h
    exact ih (hstep hs hu) hrun

/-- What a run without a reset keeps of a locked cell: with the invariant and no reset ahead, the lock and the byte. -/
def LockedAt (k : Field) (b : Byte) (s : State) : Prop := Inv s ∧ NoResetAhead s ∧ Locked s k ∧ s.cfg[k] = b

theorem lockedAt_step {k : Field} {b : Byte} {s t : State} (hs : LockedAt k b s) (h : step s = .next t) :
    LockedAt k b t := by
  obtain ⟨hinv, hahead, hlock, hb⟩ := hs
  have hcell : t.cfg[k] = s.cfg[k] := locked_cell_step hinv hahead hlock h
  exact ⟨inv_step hinv h, noResetAhead_step hahead h, by rwa [Locked, hcell], hcell.trans hb⟩

end Sys2Proof.Machine

namespace Sys2Proof.Proofs

open Sys2Proof.Machine

/-- Settles O31: the instruction keeps the invariant, and so does whichever event follows it. -/
theorem stepKeepsMachineWellFormed : Obligations.StepKeepsMachineWellFormed := fun _ _ => inv_step

/-- Settles O34, by the invariant `LockedAt` along the run. -/
theorem lockedCellSurvivesEveryRunWithoutReset : Obligations.LockedCellSurvivesEveryRunWithoutReset := by
  intro n s t k hinv hahead hlock hrun
  obtain ⟨_, _, hlock', hcell⟩ := run_keeps (P := LockedAt k s.cfg[k]) lockedAt_step ⟨hinv, hahead, hlock, rfl⟩ hrun
  exact ⟨hcell, hlock'⟩

/-- Settles O35: the cells that differ are those the instruction left, so it is a form that writes, and its access was
allowed. -/
theorem onlyWritesOrResetChangeCells : Obligations.OnlyWritesOrResetChangeCells := by
  intro s t h hevent hchanged
  obtain ⟨bytes, i, u, hfetch, hdec, hexec, hcells⟩ := step_next_cells h hevent
  obtain ⟨hcsr, hmay, _⟩ := exec_next hexec
  refine ⟨bytes, i, hfetch, hdec, hcsr, ?_, hmay⟩
  by_contra hw
  exact hchanged (hcells.trans (cellsAfter_not_writes (by simpa using hw) s))

/-- Settles O44: the placed bytes are read back, the fetch's address and check do not look at memory, and the step then
runs the instruction. -/
theorem placedWordIsRunNext : Obligations.PlacedWordIsRunNext := by
  intro s i hi halign hpass
  have hfetch := fetchBytes_withFetchWord i halign hpass
  have hdec := decodeBytes_encodeBytes hi
  refine ⟨hfetch, decodeTableWord_encode hi, rfl, fun a ha => ?_, fun _ => step_of_exec_next hfetch hdec,
    fun _ => step_of_exec_fault hfetch hdec, fun _ => step_of_exec_refused hfetch hdec⟩
  rw [withFetchWord_mem]
  exact readByte_writeBytes_outside (encodeBytes i) s.mem _ a ha

/-- Settles O48, along the run. -/
theorem parametersNeverChange : Obligations.ParametersNeverChange := fun _ s _ h =>
  run_keeps (P := fun u => u.params = s.params) (fun hu hstep => (params_step hstep).trans hu) rfl h

/-- Settles O32: the cells are those of a reset, memory is empty and `pc` is 0. -/
theorem resetStateIsWellFormed : Obligations.ResetStateIsWellFormed :=
  ⟨⟨cellsLegal_resetCells _ _, List.Pairwise.nil, rfl⟩, rfl, rfl,
    resetCells_getElem Config.params (Config.resetDraw 0)⟩

/-- Settles O43: the three outcomes of the instruction, one by one. -/
theorem stepRunsTheDecodedInstruction : Obligations.StepRunsTheDecodedInstruction := fun _ _ _ hfetch hdec =>
  ⟨fun _ => step_of_exec_next hfetch hdec, fun _ => step_of_exec_fault hfetch hdec,
    fun _ => step_of_exec_refused hfetch hdec⟩

/-- Settles O45: one case per event. -/
theorem environmentEventEffects : Obligations.EnvironmentEventEffects := by
  intro s
  refine ⟨fun h => ?hold, fun m h => ?setMxl, fun q h => ?setPriv, fun h => ?reset⟩
  case hold => rw [endStep, h]; rfl
  case setMxl => rw [endStep, h]; rfl
  case setPriv => rw [endStep, h]; rfl
  case reset => simp [h, applyEvent]

/-- Settles O46: a misaligned `pc` ends the fetch, and four bytes are decoded as their little-endian word. -/
theorem otherWordsAndMisalignedPcRefused : Obligations.OtherWordsAndMisalignedPcRefused := fun _ =>
  ⟨step_misaligned, fun _ _ _ _ _ hfetch hdec => step_notDecoded hfetch hdec⟩

end Sys2Proof.Proofs
